-- ==== Sys2Proof/Word.lean ====
section
/-! DEFINITION. The engine's words and bytes (R10, R20), the command word (R71), and the ceiling of
R6. A word of the engine is exactly `w` bits wide, so a value of `2^w` or more does not exist. -/

namespace Sys2Proof

/-- A word of the engine: a bit string of exactly `w` bits, bit 0 the least significant (R10, R20). -/
abbrev Word (w : Nat) := BitVec w

/-- A byte of the key, of a payload or of an output (R10). -/
abbrev Byte := BitVec 8

/-- The 32 bits the command port carries at once (R71). It is not a byte string (R54). -/
abbrev CommandWord := BitVec 32

/-- `⌈p/q⌉ = (p + q − 1) div q` for `q > 0` (R6). -/
def ceilDiv (p q : Nat) : Nat := (p + q - 1) / q

end Sys2Proof
end

