-- ==== Sys2Proof/Config.lean ====
section
/-! DEFINITION. What fixes one instance of the engine (R5, R7, R9): the parameters `w`, `r`, `b` and the
magic constants `P`, `Q`; the sizes derived from them (R6); the magic constants and instances the spec
names (R141); and the free values that stand for the contents the spec leaves unspecified (R36). -/

namespace Sys2Proof

/-- One instance of the engine. The range of R9 and the oddness of R7 are fields, so an instance outside
them cannot be built (93_implementation_defined.md U13, U14: refuse). Nothing else is assumed of `P` and `Q`. -/
structure Config where
  /-- Word width in bits. -/
  w : Nat
  /-- Round count. -/
  r : Nat
  /-- Key length in bytes. -/
  b : Nat
  /-- Seed of S-table init. -/
  P : Word w
  /-- Step of S-table init. -/
  Q : Word w
  w_pos : 0 < w
  w_lt : w < 2 ^ 32
  r_lt : r < 2 ^ 32
  b_lt : b < 2 ^ 32
  P_odd : P.toNat % 2 = 1
  Q_odd : Q.toNat % 2 = 1
  deriving DecidableEq, Repr

namespace Config

/-- `u`, the bytes of one word (R6). -/
def u (cfg : Config) : Nat := ceilDiv cfg.w 8

/-- `c`, the entries of the L-table, never below 1 (R6, R23). -/
def c (cfg : Config) : Nat := max (ceilDiv (cfg.b * 8) cfg.w) 1

/-- `t`, the entries of the S-table (R6, R24). -/
def t (cfg : Config) : Nat := 2 * (cfg.r + 1)

/-- `n_mix`, the iterations of the mixing pass (R6, R147). -/
def nMix (cfg : Config) : Nat := 3 * max cfg.t cfg.c

theorem c_pos (cfg : Config) : 0 < cfg.c := by
  unfold c; omega

theorem t_pos (cfg : Config) : 0 < cfg.t := by
  unfold t; omega

theorem one_lt_t (cfg : Config) : 1 < cfg.t := by
  unfold t; omega

/-! ## Free values

R36 and R191 leave the contents of KEY, L and S unspecified after a reset, and R152 and R248 promise no overwrite.
Each constant below has no body: nothing can be proved of its values, and the old contents may survive, wholly, in
part or not at all. The `Nat` before the contents is the number of the reset (the counter `resets` of the state), the
last argument what the store held before it. DESIGN CHOICE: a store's contents after a reset are a function of these
two and of its size, and of nothing else of the state. Log entry 5. -/

/-- What the storage of KEY holds after a reset (unspecified, R36; perhaps the old key still, R248). -/
opaque freeKey : (b : Nat) → Nat → Vector Byte b → Vector Byte b

/-- What the storage of L, a table of `c` words, holds after a reset (unspecified, R36, R248). -/
opaque freeL : (w c : Nat) → Nat → Vector (Word w) c → Vector (Word w) c

/-- What the storage of S, a table of `t` words, holds after a reset (unspecified, R36, R248). -/
opaque freeS : (w t : Nat) → Nat → Vector (Word w) t → Vector (Word w) t

/-! ## The magic constants of R141

PRESUMED (the spec marks the values as general knowledge, not source; log entry 2). -/

/-- The first 192 bits of `e − 2` (R141). -/
def fractionOfE : Nat := 0xB7E151628AED2A6ABF7158809CF4F3C762E7160F38B4DA56

/-- The first 192 bits of `φ − 1` (R141). -/
def fractionOfPhi : Nat := 0x9E3779B97F4A7C15F39CC0605CEDC8341082276BF3A27251

/-- The first `w` bits of a 192-bit expansion with bit 0 set: the odd integer nearest to the number the
expansion approximates, for `w ≤ 192` (R141). -/
def oddPrefix (fraction w : Nat) : Word w := BitVec.ofNat w ((fraction >>> (192 - w)) ||| 1)

/-- The rows `(w, P, Q)` of R141, the three widths of its last paragraph included. -/
def magicTable : List (Nat × Nat × Nat) :=
  [ (8, 0xB7, 0x9F),
    (16, 0xB7E1, 0x9E37),
    (24, 0xB7E151, 0x9E3779),
    (32, 0xB7E15163, 0x9E3779B9),
    (64, 0xB7E151628AED2A6B, 0x9E3779B97F4A7C15),
    (80, 0xB7E151628AED2A6ABF71, 0x9E3779B97F4A7C15F39D),
    (128, 0xB7E151628AED2A6ABF7158809CF4F3C7, 0x9E3779B97F4A7C15F39CC0605CEDC835),
    (12, 0xB7F, 0x9E3),
    (20, 0xB7E15, 0x9E377),
    (1, 1, 1) ]

/-! ## Named instances -/

/-- RC5-32/12/16, the one instance the source's complete vectors are about. -/
def rc5_32_12_16 : Config :=
  { w := 32, r := 12, b := 16, P := 0xB7E15163, Q := 0x9E3779B9, w_pos := by decide, w_lt := by decide,
    r_lt := by decide, b_lt := by decide, P_odd := by decide, Q_odd := by decide }

/-- RC5-24/4/0 (program P3 of 96_test_programs.md): a width that is no power of two, a zero-length key. -/
def rc5_24_4_0 : Config :=
  { w := 24, r := 4, b := 0, P := 0xB7E151, Q := 0x9E3779, w_pos := by decide, w_lt := by decide,
    r_lt := by decide, b_lt := by decide, P_odd := by decide, Q_odd := by decide }

/-- RC5-16/0/2 (program P4): zero rounds. -/
def rc5_16_0_2 : Config :=
  { w := 16, r := 0, b := 2, P := 0xB7E1, Q := 0x9E37, w_pos := by decide, w_lt := by decide,
    r_lt := by decide, b_lt := by decide, P_odd := by decide, Q_odd := by decide }

/-- RC5-12/2/3 (trace T8): a width that is no multiple of 8. -/
def rc5_12_2_3 : Config :=
  { w := 12, r := 2, b := 3, P := 0xB7F, Q := 0x9E3, w_pos := by decide, w_lt := by decide,
    r_lt := by decide, b_lt := by decide, P_odd := by decide, Q_odd := by decide }

/-- RC5-8/1/1 (trace T1). -/
def rc5_8_1_1 : Config :=
  { w := 8, r := 1, b := 1, P := 0xB7, Q := 0x9F, w_pos := by decide, w_lt := by decide,
    r_lt := by decide, b_lt := by decide, P_odd := by decide, Q_odd := by decide }

/-- RC5-8/0/5 (trace T2): more L entries than S entries. -/
def rc5_8_0_5 : Config :=
  { w := 8, r := 0, b := 5, P := 0xB7, Q := 0x9F, w_pos := by decide, w_lt := by decide,
    r_lt := by decide, b_lt := by decide, P_odd := by decide, Q_odd := by decide }

end Config

end Sys2Proof
end

