-- ==== Sys2Proof/Syntax.lean ====
section
/-! DEFINITION. The commands of the engine as syntax: one constructor of `Instr` per row of the opcode map
(R75), with the operands its format uses (R72, R73, R74). Data wider than the index reaches the engine as
payload bytes (R74), so a payload is no part of an instruction. -/

namespace Sys2Proof

/-- The block registers as operands: selector 0 names A, 1 names B (R21, R73). -/
inductive Reg where
  | A
  | B
  deriving DecidableEq, Repr

/-- The six formats of the command word (R72). -/
inductive Format where
  /-- `op` only. -/
  | N
  /-- `op`, `rd`, `rs1`, `rs2`. -/
  | R
  /-- `op`, `rd`. -/
  | D
  /-- `op`, `rs1`. -/
  | S
  /-- `op`, `idx`. -/
  | X
  /-- `op`, `rd`, `idx`. -/
  | DX
  deriving DecidableEq, Repr

/-- The twenty-two commands (R75). An index is a number "used as it stands" (R74); that it fits its 16-bit
field is checked by `Instr.wf`. -/
inductive Instr where
  | nop
  | srst
  | crd (idx : Nat)
  | keyld
  | linit
  | sinit
  | mix
  | expand
  | enc
  | dec
  | add (rd rs1 rs2 : Reg)
  | sub (rd rs1 rs2 : Reg)
  | xor (rd rs1 rs2 : Reg)
  | rotl (rd rs1 rs2 : Reg)
  | rotr (rd rs1 rs2 : Reg)
  | wld (rd : Reg)
  | wst (rs1 : Reg)
  | blkld
  | blkst
  | srd (idx : Nat)
  | lrd (idx : Nat)
  | smv (rd : Reg) (idx : Nat)
  deriving DecidableEq, Repr

end Sys2Proof
end

