-- ==== Sys2Proof/Machine/State.lean ====
section
/-! DEFINITION. The state of the engine and of its port, as plain data, and its value after reset.

The widths and the table lengths are part of the types (R20, R38, R218): every word-valued field is exactly
`cfg.w` bits, KEY has exactly `cfg.b` bytes, L exactly `cfg.c` words and S exactly `cfg.t` words, so a state
with a word out of bound or a table of another length does not exist. The transient state of R34 (MA, MB, the
loop indices) lives inside one command and is no field here; see `MixState` in KeySchedule.lean. -/

namespace Sys2Proof.Machine

/-- The state of a table (R33). The encoding 3 of STATUS.LST and STATUS.SST is never produced (R29). -/
inductive TableState where
  /-- 0: nothing has written the table since reset. -/
  | empty
  /-- 1: the table holds the result of its init phase. -/
  | init
  /-- 2: the mixing pass has run on it. -/
  | mixed
  deriving DecidableEq, Repr

/-- The eight fault codes of the engine (R211). Raising one is a NEXT state (R221, `raiseFault`), not a
`Fault` of the model. -/
inductive FaultCode where
  /-- 1: `decode(cw)` is none (R212). -/
  | illegalCommand
  /-- 2: the command reads KEY and KL = 0 (R213). -/
  | keyNotLoaded
  /-- 3: MIX without LST = INIT and SST = INIT (R214). -/
  | sequenceError
  /-- 4: the state of the table read does not allow it (R215). -/
  | tableNotReady
  /-- 5: `idx` names no element or register (R216). -/
  | indexRange
  /-- 6: a word of `2^w` or more; no such word exists (R217), so nothing raises it. -/
  | boundViolation
  /-- 7: a table of the wrong length; no such table exists (R218), so nothing raises it. -/
  | sizeMismatch
  /-- 8: the payload's length is not `n_in` (R219). -/
  | payloadLength
  deriving DecidableEq, Repr

/-- What the host does to the engine (R70, R240): it issues a command transaction, or asserts hardware reset
between two transactions. -/
inductive HostEvent where
  /-- A command word and its input payload, in transmission order (R70). -/
  | transaction (cw : CommandWord) (inp : List Byte)
  /-- The hardware reset input (R240). -/
  | hardwareReset
  deriving DecidableEq, Repr

/-- The engine's answer to one transaction: the response code and the output payload (R70, R82). -/
structure Response where
  rc : BitVec 8
  out : List Byte
  deriving DecidableEq, Repr

/-- The whole state. -/
structure State where
  /-- The instance: CFG_W, CFG_R, CFG_B, CFG_P and CFG_Q are hardwired to it (R5, R31, R32). -/
  cfg : Config
  /-- Block register A, `x[0]` (R21). -/
  A : Word cfg.w
  /-- Block register B, `x[1]` (R21). -/
  B : Word cfg.w
  /-- The key buffer (R22). -/
  KEY : Vector Byte cfg.b
  /-- The L-table (R23). -/
  L : Vector (Word cfg.w) cfg.c
  /-- The S-table (R24). -/
  S : Vector (Word cfg.w) cfg.t
  /-- STATUS.KL, key loaded (R29). -/
  KL : Bool
  /-- STATUS.LST (R29, R33). -/
  LST : TableState
  /-- STATUS.SST (R29, R33). -/
  SST : TableState
  /-- STATUS.FAULT; the engine is halted when it is 1 (R29, R222). -/
  FAULT : Bool
  /-- STATUS.FCODE, the code of the first fault since reset (R29). -/
  FCODE : BitVec 8
  /-- FCW (CR1), the command word of the first faulting command (R30). -/
  FCW : BitVec 32
  /-- The model's own: what the host does next, oldest first. The first entry is the transaction being
  processed (R59, R70; log entry 6). -/
  inputs : List HostEvent
  /-- The model's own: the answers given so far, oldest first (R70; log entry 6). -/
  responses : List Response
  /-- The model's own: resets taken so far, the argument of the free values (log entry 5). -/
  resets : Nat
  deriving DecidableEq, Repr

/-- Why a step stops with a fault: there is no such reason. Every outcome the spec describes, each fault of
R211 among them, is a response and a next state (R221, R250), so the type has no constructor (log entry 11). -/
inductive Fault where
  deriving DecidableEq, Repr

/-- Why a step is refused. -/
inductive Refusal where
  /-- Raised by an arm of `exec` whose instruction has no meaning yet: no arm raises it now. Safe: the run
  stops where the engine would go on. -/
  | notModelled (mnemonic : String)
  deriving DecidableEq, Repr

/-- The state of an instance after reset (R36), with no host event pending and no answer given. KEY, L and S
are unspecified there; the zeros are the model's (DESIGN CHOICE, log entry 4). -/
def State.resetOf (cfg : Config) : State where
  cfg := cfg
  A := 0
  B := 0
  KEY := Vector.replicate cfg.b 0
  L := Vector.replicate cfg.c 0
  S := Vector.replicate cfg.t 0
  KL := false
  LST := .empty
  SST := .empty
  FAULT := false
  FCODE := 0
  FCW := 0
  inputs := []
  responses := []
  resets := 0

/-- The machine right after reset (R36). The parameters are open in the spec (D2, D21); this instance is the
one of the source's complete vectors (DESIGN CHOICE, log entry 1). Nothing else of the model depends on it. -/
def State.reset : State := State.resetOf Config.rc5_32_12_16

end Sys2Proof.Machine
end

