-- ==== Sys2Proof/Machine/Flags.lean ====
section
/-! DEFINITION. The codes of the STATUS fields and the STATUS word (R29), the fault codes (R211) and the
response codes (R82). The engine has no condition codes: no arithmetic sets a flag (R27). -/

namespace Sys2Proof.Machine

/-- The value of STATUS.LST and STATUS.SST (R29, R33). -/
def TableState.code : TableState → Nat
  | .empty => 0
  | .init => 1
  | .mixed => 2

/-- The number of a fault: the response code and the value of STATUS.FCODE (R211). -/
def FaultCode.code : FaultCode → BitVec 8
  | .illegalCommand => 1
  | .keyNotLoaded => 2
  | .sequenceError => 3
  | .tableNotReady => 4
  | .indexRange => 5
  | .boundViolation => 6
  | .sizeMismatch => 7
  | .payloadLength => 8

/-- Response code of an executed command (R82). -/
def rcOK : BitVec 8 := 0x00

/-- Response code of a command refused because the engine is halted (R82, R222). -/
def rcRefused : BitVec 8 := 0x80

/-- STATUS (CR0): `KL + 2·LST + 8·SST + 32·FAULT + 256·FCODE` (R29). -/
def State.statusWord (s : State) : BitVec 32 :=
  BitVec.ofNat 32 (s.KL.toNat + 2 * s.LST.code + 8 * s.SST.code + 32 * s.FAULT.toNat + 256 * s.FCODE.toNat)

/-- The precondition of LINIT and EXPAND (R213). -/
def requireKey (s : State) : Except FaultCode Unit :=
  if s.KL = true then .ok () else .error .keyNotLoaded

/-- The precondition of MIX (R214). -/
def requireInitialisedTables (s : State) : Except FaultCode Unit :=
  if s.LST = .init ∧ s.SST = .init then .ok () else .error .sequenceError

/-- The precondition of ENC and DEC (R215). -/
def requireCompletedSchedule (s : State) : Except FaultCode Unit :=
  if s.SST = .mixed then .ok () else .error .tableNotReady

/-- The precondition of SRD and SMV on `SST`, and of LRD on `LST` (R215). -/
def requireWritten (table : TableState) : Except FaultCode Unit :=
  if table = .empty then .error .tableNotReady else .ok ()

end Sys2Proof.Machine
end

