-- ==== Sys2Proof/WellFormed.lean ====
section
/-! DEFINITION. The one check on an instruction as syntax: an index fits the 16 bits of the field `idx`
(R8, R71, R74). Register selectors are legal by their type, and every combination of them is legal (R73). -/

namespace Sys2Proof

/-- The index field is 16 bits wide, unsigned (R71, R74). -/
def indexFits (idx : Nat) : Bool := decide (idx < 2 ^ 16)

/-- An instruction is well-formed when its index, if it has one, fits the field. -/
def Instr.wf : Instr → Bool
  | .nop => true
  | .srst => true
  | .crd idx => indexFits idx
  | .keyld => true
  | .linit => true
  | .sinit => true
  | .mix => true
  | .expand => true
  | .enc => true
  | .dec => true
  | .add _ _ _ => true
  | .sub _ _ _ => true
  | .xor _ _ _ => true
  | .rotl _ _ _ => true
  | .rotr _ _ _ => true
  | .wld _ => true
  | .wst _ => true
  | .blkld => true
  | .blkst => true
  | .srd idx => indexFits idx
  | .lrd idx => indexFits idx
  | .smv _ idx => indexFits idx

/-- `Instr.wf` as a proposition. -/
abbrev Instr.WellFormed (i : Instr) : Prop := i.wf = true

end Sys2Proof
end

