-- ==== Sys2Proof/Decode.lean ====
section
/-! DEFINITION. The command word read and written: its fields (R71), the opcode map (R72, R75), the decoder
(R77, R78) and, from the same map, the encoder. The decoder reads the command word only, never the state. -/

namespace Sys2Proof

/-- `v[hi:lo]`, the value `(v div 2^lo) mod 2^(hi−lo+1)` (R10). -/
def bitField (v : CommandWord) (hi lo : Nat) : Nat := v.toNat / 2 ^ lo % 2 ^ (hi - lo + 1)

/-- A register selector: 0 selects A, 1 selects B (R73). -/
def selectReg (bit : Nat) : Reg := if bit = 0 then .A else .B

/-- The selector of a register (R73). -/
def regBit : Reg → Nat
  | .A => 0
  | .B => 1

/-- Bits 31:24 (R71). -/
def opField (cw : CommandWord) : Nat := bitField cw 31 24
/-- Bit 23 (R71). -/
def rdField (cw : CommandWord) : Nat := bitField cw 23 23
/-- Bit 22 (R71). -/
def rs1Field (cw : CommandWord) : Nat := bitField cw 22 22
/-- Bit 21 (R71). -/
def rs2Field (cw : CommandWord) : Nat := bitField cw 21 21
/-- Bits 20:16, reserved (R71). -/
def zField (cw : CommandWord) : Nat := bitField cw 20 16
/-- Bits 15:0 (R71). -/
def idxField (cw : CommandWord) : Nat := bitField cw 15 0

/-- The mask of the bits a format fixes (R72). -/
def formatMask : Format → CommandWord
  | .N => 0xFFFFFFFF
  | .R => 0xFF1FFFFF
  | .D => 0xFF7FFFFF
  | .S => 0xFFBFFFFF
  | .X => 0xFFFF0000
  | .DX => 0xFF7F0000

/-- The formats that use the field `rd` (R72). -/
def usesRd : Format → Bool
  | .R | .D | .DX => true
  | .N | .S | .X => false

/-- The formats that use the field `rs1` (R72). -/
def usesRs1 : Format → Bool
  | .R | .S => true
  | .N | .D | .X | .DX => false

/-- The formats that use the field `rs2` (R72). -/
def usesRs2 : Format → Bool
  | .R => true
  | .N | .D | .S | .X | .DX => false

/-- The formats that use the field `idx` (R72). -/
def usesIdx : Format → Bool
  | .X | .DX => true
  | .N | .R | .D | .S => false

/-- One row of the opcode map (R75): the columns `mnemonic`, `op`, `format`, `match`, `mask`, and the
instruction a selected command word stands for, its operands read from the fields (R77). -/
structure OpRow where
  mnemonic : String
  op : Nat
  format : Format
  pattern : CommandWord
  mask : CommandWord
  build : CommandWord → Instr

/-- The operands of a command word in formats R, D, S, X and DX (R77: `rd = cw[23]`, `rs1 = cw[22]`,
`rs2 = cw[21]`, `idx = cw[15:0]`). -/
def operandRd (cw : CommandWord) : Reg := selectReg (rdField cw)
/-- See `operandRd`. -/
def operandRs1 (cw : CommandWord) : Reg := selectReg (rs1Field cw)
/-- See `operandRd`. -/
def operandRs2 (cw : CommandWord) : Reg := selectReg (rs2Field cw)

/-- System commands (R75). -/
def systemRows : List OpRow :=
  [ ⟨"NOP", 0x00, .N, 0x00000000, 0xFFFFFFFF, fun _ => .nop⟩,
    ⟨"SRST", 0x01, .N, 0x01000000, 0xFFFFFFFF, fun _ => .srst⟩,
    ⟨"CRD", 0x02, .X, 0x02000000, 0xFFFF0000, fun cw => .crd (idxField cw)⟩ ]

/-- Key Schedule commands (R75). -/
def keyScheduleRows : List OpRow :=
  [ ⟨"KEYLD", 0x10, .N, 0x10000000, 0xFFFFFFFF, fun _ => .keyld⟩,
    ⟨"LINIT", 0x11, .N, 0x11000000, 0xFFFFFFFF, fun _ => .linit⟩,
    ⟨"SINIT", 0x12, .N, 0x12000000, 0xFFFFFFFF, fun _ => .sinit⟩,
    ⟨"MIX", 0x13, .N, 0x13000000, 0xFFFFFFFF, fun _ => .mix⟩,
    ⟨"EXPAND", 0x14, .N, 0x14000000, 0xFFFFFFFF, fun _ => .expand⟩ ]

/-- Round Cipher commands (R75). -/
def roundCipherRows : List OpRow :=
  [ ⟨"ENC", 0x20, .N, 0x20000000, 0xFFFFFFFF, fun _ => .enc⟩,
    ⟨"DEC", 0x21, .N, 0x21000000, 0xFFFFFFFF, fun _ => .dec⟩ ]

/-- Word Arithmetic commands (R75). -/
def wordArithmeticRows : List OpRow :=
  [ ⟨"ADD", 0x30, .R, 0x30000000, 0xFF1FFFFF, fun cw => .add (operandRd cw) (operandRs1 cw) (operandRs2 cw)⟩,
    ⟨"SUB", 0x31, .R, 0x31000000, 0xFF1FFFFF, fun cw => .sub (operandRd cw) (operandRs1 cw) (operandRs2 cw)⟩,
    ⟨"XOR", 0x32, .R, 0x32000000, 0xFF1FFFFF, fun cw => .xor (operandRd cw) (operandRs1 cw) (operandRs2 cw)⟩,
    ⟨"ROTL", 0x33, .R, 0x33000000, 0xFF1FFFFF, fun cw => .rotl (operandRd cw) (operandRs1 cw) (operandRs2 cw)⟩,
    ⟨"ROTR", 0x34, .R, 0x34000000, 0xFF1FFFFF, fun cw => .rotr (operandRd cw) (operandRs1 cw) (operandRs2 cw)⟩ ]

/-- Word Codec commands (R75). -/
def wordCodecRows : List OpRow :=
  [ ⟨"WLD", 0x40, .D, 0x40000000, 0xFF7FFFFF, fun cw => .wld (operandRd cw)⟩,
    ⟨"WST", 0x41, .S, 0x41000000, 0xFFBFFFFF, fun cw => .wst (operandRs1 cw)⟩,
    ⟨"BLKLD", 0x42, .N, 0x42000000, 0xFFFFFFFF, fun _ => .blkld⟩,
    ⟨"BLKST", 0x43, .N, 0x43000000, 0xFFFFFFFF, fun _ => .blkst⟩ ]

/-- Table observation commands (R75). -/
def observationRows : List OpRow :=
  [ ⟨"SRD", 0x50, .X, 0x50000000, 0xFFFF0000, fun cw => .srd (idxField cw)⟩,
    ⟨"LRD", 0x51, .X, 0x51000000, 0xFFFF0000, fun cw => .lrd (idxField cw)⟩,
    ⟨"SMV", 0x52, .DX, 0x52000000, 0xFF7F0000, fun cw => .smv (operandRd cw) (idxField cw)⟩ ]

/-- The opcode map (R75), in its order. -/
def opcodeTable : List OpRow :=
  systemRows ++ keyScheduleRows ++ roundCipherRows ++ wordArithmeticRows ++ wordCodecRows ++ observationRows

/-- A command word selects a row when `cw & mask = match` (R75). -/
def OpRow.selects (row : OpRow) (cw : CommandWord) : Bool := decide (cw &&& row.mask = row.pattern)

/-- Why a command word stands for no command: the three causes R212 lists. All three raise the one fault
IllegalCommand. DESIGN CHOICE: the spec names the causes and gives them no number (log entry 13). -/
inductive Illegal where
  /-- `op` is one of the 234 unassigned values (R78). -/
  | unassignedOp
  /-- The reserved field `z` is not 0 (R71, R78). -/
  | reservedField
  /-- A field the format of the command does not use is not 0 (R72, R78). -/
  | unusedField
  deriving DecidableEq, Repr

/-- Which cause of R212 makes a word illegal that selects no row. -/
def illegalCause (cw : CommandWord) : Illegal :=
  if opcodeTable.all (fun row => row.op != opField cw) then .unassignedOp
  else if zField cw ≠ 0 then .reservedField
  else .unusedField

/-- `decode(cw)` (R77): the command of the one row the word selects, or the cause that it selects none.
Total on all `2^32` command words. -/
def decode (cw : CommandWord) : Except Illegal Instr :=
  match opcodeTable.find? (fun row => row.selects cw) with
  | some row => .ok (row.build cw)
  | none => .error (illegalCause cw)

/-- `cw = op·2^24 + rd·2^23 + rs1·2^22 + rs2·2^21 + z·2^16 + idx` with `z = 0` (R71). -/
def assemble (op rd rs1 rs2 idx : Nat) : CommandWord :=
  BitVec.ofNat 32 (op * 2 ^ 24 + rd * 2 ^ 23 + rs1 * 2 ^ 22 + rs2 * 2 ^ 21 + idx)

/-- The command word of an instruction (R71, R72, R75). -/
def encode : Instr → CommandWord
  | .nop => assemble 0x00 0 0 0 0
  | .srst => assemble 0x01 0 0 0 0
  | .crd idx => assemble 0x02 0 0 0 idx
  | .keyld => assemble 0x10 0 0 0 0
  | .linit => assemble 0x11 0 0 0 0
  | .sinit => assemble 0x12 0 0 0 0
  | .mix => assemble 0x13 0 0 0 0
  | .expand => assemble 0x14 0 0 0 0
  | .enc => assemble 0x20 0 0 0 0
  | .dec => assemble 0x21 0 0 0 0
  | .add rd rs1 rs2 => assemble 0x30 (regBit rd) (regBit rs1) (regBit rs2) 0
  | .sub rd rs1 rs2 => assemble 0x31 (regBit rd) (regBit rs1) (regBit rs2) 0
  | .xor rd rs1 rs2 => assemble 0x32 (regBit rd) (regBit rs1) (regBit rs2) 0
  | .rotl rd rs1 rs2 => assemble 0x33 (regBit rd) (regBit rs1) (regBit rs2) 0
  | .rotr rd rs1 rs2 => assemble 0x34 (regBit rd) (regBit rs1) (regBit rs2) 0
  | .wld rd => assemble 0x40 (regBit rd) 0 0 0
  | .wst rs1 => assemble 0x41 0 (regBit rs1) 0 0
  | .blkld => assemble 0x42 0 0 0 0
  | .blkst => assemble 0x43 0 0 0 0
  | .srd idx => assemble 0x50 0 0 0 idx
  | .lrd idx => assemble 0x51 0 0 0 idx
  | .smv rd idx => assemble 0x52 (regBit rd) 0 0 idx

/-- The opcode of an instruction (R75). -/
def opcodeOf : Instr → Nat
  | .nop => 0x00
  | .srst => 0x01
  | .crd _ => 0x02
  | .keyld => 0x10
  | .linit => 0x11
  | .sinit => 0x12
  | .mix => 0x13
  | .expand => 0x14
  | .enc => 0x20
  | .dec => 0x21
  | .add _ _ _ => 0x30
  | .sub _ _ _ => 0x31
  | .xor _ _ _ => 0x32
  | .rotl _ _ _ => 0x33
  | .rotr _ _ _ => 0x34
  | .wld _ => 0x40
  | .wst _ => 0x41
  | .blkld => 0x42
  | .blkst => 0x43
  | .srd _ => 0x50
  | .lrd _ => 0x51
  | .smv _ _ => 0x52

/-- The format of an instruction (R72). -/
def formatOf : Instr → Format
  | .nop | .srst | .keyld | .linit | .sinit | .mix | .expand | .enc | .dec | .blkld | .blkst => .N
  | .add _ _ _ | .sub _ _ _ | .xor _ _ _ | .rotl _ _ _ | .rotr _ _ _ => .R
  | .wld _ => .D
  | .wst _ => .S
  | .crd _ | .srd _ | .lrd _ => .X
  | .smv _ _ => .DX

/-- The instruction the decoder reads from a word numbered as the opcode table numbers it. The command port
carries the 32 bits at once (R54), so there is nothing to lay out in bytes: bit `k` of the number is bit `k`
of the command word, and bits from `nbits` up are 0 (log entry 16). -/
def decodeTableWord (nbits w : Nat) : Option Instr :=
  match decode (BitVec.ofNat 32 (w % 2 ^ nbits)) with
  | .ok i => some i
  | .error _ => none

end Sys2Proof
end

