-- ==== Sys2Proof/Machine/Operands.lean ====
section
/-! DEFINITION. The operands of a command: its command word and payload (R70), the block registers (R21,
R73), indices (R74), control register numbers (R28), and the payload lengths of every command (R76). -/

namespace Sys2Proof.Machine

/-- The command word of the transaction being processed. Only `step` runs a command, and only when a
transaction is first in the queue (log entry 17). -/
def State.cw (s : State) : CommandWord :=
  match s.inputs with
  | .transaction cw _ :: _ => cw
  | _ => 0

/-- The input payload of the transaction being processed. -/
def State.payload (s : State) : List Byte :=
  match s.inputs with
  | .transaction _ inp :: _ => inp
  | _ => []

/-- `x[i]` read (R11, R21). -/
def State.reg (s : State) : Reg → Word s.cfg.w
  | .A => s.A
  | .B => s.B

/-- `x[i] <- v` (R11, R21). -/
def State.setReg (s : State) (r : Reg) (v : Word s.cfg.w) : State :=
  match r with
  | .A => { s with A := v }
  | .B => { s with B := v }

/-- A table element named by the host: an index the table does not have raises IndexRange (R63, R216). -/
def tableElement {w n : Nat} (table : Vector (Word w) n) (idx : Nat) : Except FaultCode (Word w) :=
  if h : idx < n then .ok table[idx] else .error .indexRange

/-- The seven control registers (R28). -/
inductive ControlReg where
  | STATUS
  | FCW
  | CFG_W
  | CFG_R
  | CFG_B
  | CFG_P
  | CFG_Q
  deriving DecidableEq, Repr

/-- The control register a number names; 7 and above name none and raise IndexRange (R28, R216). -/
def controlReg : Nat → Except FaultCode ControlReg
  | 0 => .ok .STATUS
  | 1 => .ok .FCW
  | 2 => .ok .CFG_W
  | 3 => .ok .CFG_R
  | 4 => .ok .CFG_B
  | 5 => .ok .CFG_P
  | 6 => .ok .CFG_Q
  | _ => .error .indexRange

/-- `n_in`, the length of the input payload (R76). -/
def nIn (cfg : Config) : Instr → Nat
  | .keyld => cfg.b
  | .wld _ => cfg.u
  | .blkld => 2 * cfg.u
  | .nop => 0
  | .srst => 0
  | .crd _ => 0
  | .linit => 0
  | .sinit => 0
  | .mix => 0
  | .expand => 0
  | .enc => 0
  | .dec => 0
  | .add _ _ _ => 0
  | .sub _ _ _ => 0
  | .xor _ _ _ => 0
  | .rotl _ _ _ => 0
  | .rotr _ _ _ => 0
  | .wst _ => 0
  | .blkst => 0
  | .srd _ => 0
  | .lrd _ => 0
  | .smv _ _ => 0

/-- `n_out`, the length of the output payload on success (R76). -/
def nOut (cfg : Config) : Instr → Nat
  | .wst _ => cfg.u
  | .blkst => 2 * cfg.u
  | .srd _ => cfg.u
  | .lrd _ => cfg.u
  | .crd idx => if idx ≤ 4 then 4 else cfg.u
  | .keyld => 0
  | .wld _ => 0
  | .blkld => 0
  | .nop => 0
  | .srst => 0
  | .linit => 0
  | .sinit => 0
  | .mix => 0
  | .expand => 0
  | .enc => 0
  | .dec => 0
  | .add _ _ _ => 0
  | .sub _ _ _ => 0
  | .xor _ _ _ => 0
  | .rotl _ _ _ => 0
  | .rotr _ _ _ => 0
  | .smv _ _ => 0

/-- The commands a halted engine still runs, given an empty payload: NOP, SRST, and CRD of a register that
exists (R83 step 1, R222). -/
def runsWhenHalted : Instr → Bool
  | .nop => true
  | .srst => true
  | .crd idx => decide (idx ≤ 6)
  | .keyld => false
  | .linit => false
  | .sinit => false
  | .mix => false
  | .expand => false
  | .enc => false
  | .dec => false
  | .add _ _ _ => false
  | .sub _ _ _ => false
  | .xor _ _ _ => false
  | .rotl _ _ _ => false
  | .rotr _ _ _ => false
  | .wld _ => false
  | .wst _ => false
  | .blkld => false
  | .blkst => false
  | .srd _ => false
  | .lrd _ => false
  | .smv _ _ => false

end Sys2Proof.Machine
end

