-- ==== Sys2Proof/Machine/Ops.lean ====
section
/-! DEFINITION. The operations the commands share: the storage primitives of KEY (R63), the response (R70,
R82), taking a fault (R221) and the two ways out of the halted state (R223, R240), the refusal of a halted
engine (R222), and the frame every command runs in (R83). -/

namespace Sys2Proof.Machine

/-! ## The key buffer (R22, R63) -/

/-- One byte of KEY; an index of `b` or more reads as `0x00` (R63, R55). -/
def keyByte {b : Nat} (KEY : Vector Byte b) (k : Nat) : Byte :=
  if h : k < b then KEY[k] else 0

/-- `MemRead(KEY+k, n)` (R63). -/
def memReadKey {b : Nat} (KEY : Vector Byte b) (k n : Nat) : List Byte :=
  (List.range n).map fun m => keyByte KEY (k + m)

/-- `MemWrite(KEY+0, b, str)`: `KEY[k]` takes byte `k` of the string (R22, R63). -/
def memWriteKey (b : Nat) (str : List Byte) : Vector Byte b :=
  Vector.ofFn fun k => str.getD k.val 0

/-! ## The response -/

/-- The transaction ends: it leaves the queue, and its response is given (R70). -/
def State.respond (s : State) (rc : BitVec 8) (out : List Byte) : State :=
  { s with inputs := s.inputs.tail, responses := s.responses ++ [⟨rc, out⟩] }

/-! ## Taking a fault, and the return from one -/

/-- What a fault records: FAULT, FCODE and FCW, and nothing else (R221). -/
def State.recordFault (s : State) (f : FaultCode) : State :=
  { s with FAULT := true, FCODE := f.code, FCW := s.cw }

/-- `raise F(cw)` (R221). There is no handler to go to: the next command is whatever the host issues. -/
def raiseFault (f : FaultCode) (s : State) : Host.Outcome State Fault Refusal :=
  .next ((s.recordFault f).respond f.code [])

/-- The reset state (R36), reached by SRST and by hardware reset alike (R191, R240), the only exits from the
halted state (R223). The instance is untouched (R31, R32). KEY, L and S become unspecified, and no overwrite is promised
(R152, R248). DESIGN CHOICE, log entry 5: each becomes a free value, a function without a body of the number of the
reset and of what that store held, so the old contents may survive and nothing proves that they do or do not; that it
is a function of these two alone is the model's, not the spec's. -/
def State.resetEngine (s : State) : State :=
  { s with
    A := 0
    B := 0
    KEY := Config.freeKey s.cfg.b s.resets s.KEY
    L := Config.freeL s.cfg.w s.cfg.c s.resets s.L
    S := Config.freeS s.cfg.w s.cfg.t s.resets s.S
    KL := false
    LST := .empty
    SST := .empty
    FAULT := false
    FCODE := 0
    FCW := 0
    resets := s.resets + 1 }

/-- A halted engine refuses the command: `0x80`, an empty output, and nothing changes (R222). -/
def refuseHalted (s : State) : Host.Outcome State Fault Refusal :=
  .next (s.respond rcRefused [])

/-! ## The frame of a command (R83) -/

/-- A check, then what follows if it passes; if it fails, its fault ends the command (R83 steps 4 and 5). -/
def afterCheck {α β : Type} (check : Except FaultCode α) (rest : α → Except FaultCode β) : Except FaultCode β :=
  match check with
  | .error f => .error f
  | .ok a => rest a

/-- Steps 1 and 3 to 6 of R83 for a decoded command. `whenHalted` says whether a halted engine still runs it
(given an empty payload), `len` is its `n_in`, and `body` makes the checks of steps 4 and 5, in that order,
and then gives the state and the output of step 6. Every check precedes every change (R221). -/
def command (whenHalted : Bool) (len : Nat) (body : Except FaultCode (State × List Byte)) (s : State) :
    Host.Outcome State Fault Refusal :=
  if s.FAULT = true ∧ ¬ (whenHalted = true ∧ s.payload = []) then refuseHalted s
  else if s.payload.length ≠ len then raiseFault .payloadLength s
  else
    match body with
    | .error f => raiseFault f s
    | .ok (s', out) => .next (s'.respond rcOK out)

/-- Steps 1 and 2 of R83 for a command word that decodes to nothing: refused when halted, else
IllegalCommand, whatever the payload (R212, R220). -/
def illegalCommand (s : State) : Host.Outcome State Fault Refusal :=
  if s.FAULT = true then refuseHalted s else raiseFault .illegalCommand s

/-! ## What happens between transactions -/

/-- No host event is pending: the engine holds its state indefinitely (R231, R241). -/
def idle (s : State) : Host.Outcome State Fault Refusal := .next s

/-- Hardware reset, between two transactions: the engine takes the reset state and gives no response (R240). -/
def hardwareReset (s : State) : Host.Outcome State Fault Refusal :=
  .next { s.resetEngine with inputs := s.inputs.tail }

end Sys2Proof.Machine
end

