-- ==== Sys2Proof/Machine/WordArithmetic.lean ====
section
/-! DEFINITION. The Word Arithmetic unit: the five functions (R100 to R105) and the commands ADD, SUB, XOR,
ROTL, ROTR (R107 to R112). The functions are written on unbounded numbers and narrowed once at the end, as
R12 asks. -/

namespace Sys2Proof.Machine

variable {w : Nat}

/-- `add(l, r) = (l + r) mod 2^w` (R101). -/
def wordAdd (l r : Word w) : Word w := BitVec.ofNat w (l.toNat + r.toNat)

/-- `sub(l, r) = (l − r) mod 2^w`, the difference taken on integers (R102). -/
def wordSub (l r : Word w) : Word w := BitVec.ofInt w ((l.toNat : Int) - (r.toNat : Int))

/-- `xor(l, r)`, bitwise (R103). -/
def wordXor (l r : Word w) : Word w := l ^^^ r

/-- `rotl` by an amount that is a number: with `k := amount mod w`, `or(shl(l, k), shr(l, w − k)) mod 2^w`
(R104). The mixing pass rotates by the number 3 (R147 point b). -/
def rotlBy (l : Word w) (amount : Nat) : Word w :=
  let k := amount % w
  BitVec.ofNat w ((l.toNat <<< k) ||| (l.toNat >>> (w - k)))

/-- `rotr` by an amount that is a number: with `k := amount mod w`, `or(shr(l, k), shl(l, w − k)) mod 2^w`
(R105). -/
def rotrBy (l : Word w) (amount : Nat) : Word w :=
  let k := amount % w
  BitVec.ofNat w ((l.toNat >>> k) ||| (l.toNat <<< (w - k)))

/-- `rotl(l, amount)`, the amount a whole word (R104). -/
def rotl (l amount : Word w) : Word w := rotlBy l amount.toNat

/-- `rotr(l, amount)`, the amount a whole word (R105). -/
def rotr (l amount : Word w) : Word w := rotrBy l amount.toNat

/-- The shape the five commands share: both sources are read before the destination is written, and nothing
but the destination changes (R112). -/
def registerOp (s : State) (rd : Reg) (value : Word s.cfg.w) : Except FaultCode (State × List Byte) :=
  .ok (s.setReg rd value, [])

/-- ADD (R107). -/
def execAdd (rd rs1 rs2 : Reg) (s : State) : Host.Outcome State Fault Refusal :=
  command false 0 (registerOp s rd (wordAdd (s.reg rs1) (s.reg rs2))) s

/-- SUB (R108): `rs1` is the minuend. -/
def execSub (rd rs1 rs2 : Reg) (s : State) : Host.Outcome State Fault Refusal :=
  command false 0 (registerOp s rd (wordSub (s.reg rs1) (s.reg rs2))) s

/-- XOR (R109). -/
def execXor (rd rs1 rs2 : Reg) (s : State) : Host.Outcome State Fault Refusal :=
  command false 0 (registerOp s rd (wordXor (s.reg rs1) (s.reg rs2))) s

/-- ROTL (R110): the amount is the whole word `x[rs2]`. -/
def execRotl (rd rs1 rs2 : Reg) (s : State) : Host.Outcome State Fault Refusal :=
  command false 0 (registerOp s rd (rotl (s.reg rs1) (s.reg rs2))) s

/-- ROTR (R111): the amount is the whole word `x[rs2]`. -/
def execRotr (rd rs1 rs2 : Reg) (s : State) : Host.Outcome State Fault Refusal :=
  command false 0 (registerOp s rd (rotr (s.reg rs1) (s.reg rs2))) s

end Sys2Proof.Machine
end

