-- ==== Sys2Proof/Machine/WordCodec.lean ====
section
/-! DEFINITION. The Word Codec unit: words to and from little-endian byte strings (R51, R120, R121) and the
commands WLD, WST, BLKLD, BLKST (R123 to R126). -/

namespace Sys2Proof.Machine

/-- `buf[0] + buf[1]·2^8 + … ` (R120). -/
def leValue : List Byte → Nat
  | [] => 0
  | byte :: rest => byte.toNat + 2 ^ 8 * leValue rest

/-- `from_bytes(buf)` (R120): bits above the word's width are dropped without a fault. -/
def fromBytes (w : Nat) (buf : List Byte) : Word w := BitVec.ofNat w (leValue buf)

/-- Byte `m` of a word, `(x div 2^(8m)) mod 256` (R121). -/
def wordByte {w : Nat} (x : Word w) (m : Nat) : Byte := BitVec.ofNat 8 (x.toNat / 2 ^ (8 * m))

/-- `to_bytes(x)`, the `u` bytes of a word (R121). -/
def toBytes {w : Nat} (x : Word w) : List Byte := (List.range (ceilDiv w 8)).map fun m => wordByte x m

/-- WLD (R123). -/
def execWld (rd : Reg) (s : State) : Host.Outcome State Fault Refusal :=
  command false s.cfg.u (.ok (s.setReg rd (fromBytes s.cfg.w s.payload), [])) s

/-- WST (R124). -/
def execWst (rs1 : Reg) (s : State) : Host.Outcome State Fault Refusal :=
  command false 0 (.ok (s, toBytes (s.reg rs1))) s

/-- BLKLD (R125): the first `u` bytes are A, the next `u` bytes are B (R52). -/
def execBlkld (s : State) : Host.Outcome State Fault Refusal :=
  command false (2 * s.cfg.u)
    (.ok ({ s with A := fromBytes s.cfg.w (s.payload.take s.cfg.u)
                   B := fromBytes s.cfg.w (s.payload.drop s.cfg.u) }, [])) s

/-- BLKST (R126): A's bytes first, then B's. -/
def execBlkst (s : State) : Host.Outcome State Fault Refusal :=
  command false 0 (.ok (s, toBytes s.A ++ toBytes s.B)) s

end Sys2Proof.Machine
end

