-- ==== Sys2Proof/Machine/KeySchedule.lean ====
section
/-! DEFINITION. The Key Schedule unit: the three phases as functions (R143, R145, R147) and the commands
KEYLD, LINIT, SINIT, MIX, EXPAND (R142, R144, R146, R148, R149). The rolling words MA and MB are not the block
registers (R151). -/

namespace Sys2Proof.Machine

/-! ## L-table init (R143) -/

/-- `chunk_k`: the `u` key bytes from `k·u`, a byte at or beyond `b` taken as `0x00` (R143). -/
def keyChunk (cfg : Config) (key : Vector Byte cfg.b) (k : Nat) : List Byte :=
  memReadKey key (k * cfg.u) cfg.u

/-- `linit(key)` (R143). -/
def linit (cfg : Config) (key : Vector Byte cfg.b) : Vector (Word cfg.w) cfg.c :=
  Vector.ofFn fun k => fromBytes cfg.w (keyChunk cfg key k.val)

/-! ## S-table init (R145) -/

/-- `S[0] = P`, `S[i] = add(S[i−1], Q)` (R145). -/
def sinitWord (cfg : Config) : Nat → Word cfg.w
  | 0 => cfg.P
  | i + 1 => wordAdd (sinitWord cfg i) cfg.Q

/-- `sinit()` (R145). -/
def sinit (cfg : Config) : Vector (Word cfg.w) cfg.t :=
  Vector.ofFn fun i => sinitWord cfg i.val

/-! ## The mixing pass (R147) -/

/-- What the mixing pass holds while it runs: both tables, the rolling words and the two indices (R34). -/
structure MixState (cfg : Config) where
  S : Vector (Word cfg.w) cfg.t
  L : Vector (Word cfg.w) cfg.c
  MA : Word cfg.w
  MB : Word cfg.w
  i : Fin cfg.t
  j : Fin cfg.c
  deriving DecidableEq, Repr

/-- `(k + 1) mod n` for an index of a table of `n` entries (R147 step 3). -/
def nextIndex {n : Nat} (k : Fin n) : Fin n :=
  ⟨(k.val + 1) % n, Nat.mod_lt _ (Nat.lt_of_le_of_lt (Nat.zero_le _) k.isLt)⟩

/-- `MA := 0; MB := 0; i := 0; j := 0` (R147). -/
def mixStart (cfg : Config) (L : Vector (Word cfg.w) cfg.c) (S : Vector (Word cfg.w) cfg.t) : MixState cfg where
  S := S
  L := L
  MA := 0
  MB := 0
  i := ⟨0, cfg.t_pos⟩
  j := ⟨0, cfg.c_pos⟩

/-- One iteration (R147): step 1 on `S[i]`, step 2 on `L[j]` with the MA just computed and the old MB, step 3
on the indices. The amount of step 1 is the number 3, reduced `mod w` (point b); that of step 2 is
`add(MA, MB)`, a word before it is reduced `mod w` (point c). -/
def mixIteration {cfg : Config} (m : MixState cfg) : MixState cfg :=
  let MA := rotlBy (wordAdd (wordAdd m.S[m.i] m.MA) m.MB) 3
  let amt := wordAdd MA m.MB
  let MB := rotl (wordAdd (wordAdd m.L[m.j] MA) m.MB) amt
  { S := m.S.set m.i MA, L := m.L.set m.j MB, MA := MA, MB := MB, i := nextIndex m.i, j := nextIndex m.j }

/-- The mixing pass after `n` iterations. -/
def mixAfter (cfg : Config) (L : Vector (Word cfg.w) cfg.c) (S : Vector (Word cfg.w) cfg.t) : Nat → MixState cfg
  | 0 => mixStart cfg L S
  | n + 1 => mixIteration (mixAfter cfg L S n)

/-- `mix(L, S)`: `n_mix` iterations, both tables as rewritten (R147). -/
def mix (cfg : Config) (L : Vector (Word cfg.w) cfg.c) (S : Vector (Word cfg.w) cfg.t) :
    Vector (Word cfg.w) cfg.c × Vector (Word cfg.w) cfg.t :=
  let m := mixAfter cfg L S cfg.nMix
  (m.L, m.S)

/-- `mix(linit(key), sinit())`; its second component is `expand_key(key)` (R140, R149). -/
def schedule (cfg : Config) (key : Vector Byte cfg.b) : Vector (Word cfg.w) cfg.c × Vector (Word cfg.w) cfg.t :=
  mix cfg (linit cfg key) (sinit cfg)

/-! ## The commands -/

/-- KEYLD (R142): the key buffer and KL, nothing else. -/
def execKeyld (s : State) : Host.Outcome State Fault Refusal :=
  command false s.cfg.b (.ok ({ s with KEY := memWriteKey s.cfg.b s.payload, KL := true }, [])) s

/-- LINIT (R144). -/
def execLinit (s : State) : Host.Outcome State Fault Refusal :=
  command false 0
    (afterCheck (requireKey s) fun _ => .ok ({ s with L := linit s.cfg s.KEY, LST := .init }, [])) s

/-- SINIT (R146): it needs no key, and destroys a completed table (R37). -/
def execSinit (s : State) : Host.Outcome State Fault Refusal :=
  command false 0 (.ok ({ s with S := sinit s.cfg, SST := .init }, [])) s

/-- MIX (R148). -/
def execMix (s : State) : Host.Outcome State Fault Refusal :=
  command false 0
    (afterCheck (requireInitialisedTables s) fun _ =>
      .ok ({ s with L := (mix s.cfg s.L s.S).1, S := (mix s.cfg s.L s.S).2, LST := .mixed, SST := .mixed }, [])) s

/-- EXPAND (R149), the source's `expand_key`. -/
def execExpand (s : State) : Host.Outcome State Fault Refusal :=
  command false 0
    (afterCheck (requireKey s) fun _ =>
      .ok ({ s with L := (schedule s.cfg s.KEY).1, S := (schedule s.cfg s.KEY).2, LST := .mixed, SST := .mixed },
        [])) s

end Sys2Proof.Machine
end

