-- ==== Sys2Proof/Machine/RoundCipher.lean ====
section
/-! DEFINITION. The Round Cipher unit: `encrypt` and `decrypt` as functions of `(S, A, B)` (R170, R171, R172)
and the commands ENC and DEC (R173, R174). -/

namespace Sys2Proof.Machine

/-- The largest index of round `i ≤ r` is `2i+1 ≤ 2r+1 = t−1` (R63, R170). -/
theorem round_index_lt {cfg : Config} {i : Nat} (h : i ≤ cfg.r) : 2 * i + 1 < cfg.t := by
  unfold Config.t; omega

/-- One line pair of the loop of `encrypt` (R171): A first, then B with the A just computed. -/
def encRound {cfg : Config} (S : Vector (Word cfg.w) cfg.t) (i : Nat) (h : i ≤ cfg.r)
    (x : Word cfg.w × Word cfg.w) : Word cfg.w × Word cfg.w :=
  let A := wordAdd (rotl (wordXor x.1 x.2) x.2) (S[2 * i]'(Nat.lt_of_succ_lt (round_index_lt h)))
  let B := wordAdd (rotl (wordXor x.2 A) A) (S[2 * i + 1]'(round_index_lt h))
  (A, B)

/-- `encrypt` after the rounds `1 .. k` (R171). -/
def encAfter {cfg : Config} (S : Vector (Word cfg.w) cfg.t) (x : Word cfg.w × Word cfg.w) :
    (k : Nat) → k ≤ cfg.r → Word cfg.w × Word cfg.w
  | 0, _ => (wordAdd x.1 (S[0]'cfg.t_pos), wordAdd x.2 (S[1]'cfg.one_lt_t))
  | k + 1, h => encRound S (k + 1) h (encAfter S x k (Nat.le_of_succ_le h))

/-- `encrypt(S, A, B)` (R171). -/
def encrypt {cfg : Config} (S : Vector (Word cfg.w) cfg.t) (A B : Word cfg.w) : Word cfg.w × Word cfg.w :=
  encAfter S (A, B) cfg.r (Nat.le_refl _)

/-- One line pair of the loop of `decrypt` (R172): B first, then A with the B just computed. -/
def decRound {cfg : Config} (S : Vector (Word cfg.w) cfg.t) (i : Nat) (h : i ≤ cfg.r)
    (x : Word cfg.w × Word cfg.w) : Word cfg.w × Word cfg.w :=
  let B := wordXor (rotr (wordSub x.2 (S[2 * i + 1]'(round_index_lt h))) x.1) x.1
  let A := wordXor (rotr (wordSub x.1 (S[2 * i]'(Nat.lt_of_succ_lt (round_index_lt h)))) B) B
  (A, B)

/-- The rounds `k` down to `1` of `decrypt`, and the subtractions after the loop (R172). -/
def decFrom {cfg : Config} (S : Vector (Word cfg.w) cfg.t) :
    (k : Nat) → k ≤ cfg.r → Word cfg.w × Word cfg.w → Word cfg.w × Word cfg.w
  | 0, _, x => (wordSub x.1 (S[0]'cfg.t_pos), wordSub x.2 (S[1]'cfg.one_lt_t))
  | k + 1, h, x => decFrom S k (Nat.le_of_succ_le h) (decRound S (k + 1) h x)

/-- `decrypt(S, A, B)` (R172). -/
def decrypt {cfg : Config} (S : Vector (Word cfg.w) cfg.t) (A B : Word cfg.w) : Word cfg.w × Word cfg.w :=
  decFrom S cfg.r (Nat.le_refl _) (A, B)

/-- ENC (R173). -/
def execEnc (s : State) : Host.Outcome State Fault Refusal :=
  command false 0
    (afterCheck (requireCompletedSchedule s) fun _ =>
      .ok ({ s with A := (encrypt s.S s.A s.B).1, B := (encrypt s.S s.A s.B).2 }, [])) s

/-- DEC (R174). -/
def execDec (s : State) : Host.Outcome State Fault Refusal :=
  command false 0
    (afterCheck (requireCompletedSchedule s) fun _ =>
      .ok ({ s with A := (decrypt s.S s.A s.B).1, B := (decrypt s.S s.A s.B).2 }, [])) s

end Sys2Proof.Machine
end

