-- ==== Sys2Proof/Machine/System.lean ====
section
/-! DEFINITION. The system commands NOP, SRST, CRD (R190 to R192) and the table observation commands SRD,
LRD, SMV (R193 to R195). -/

namespace Sys2Proof.Machine

/-- The four bytes `v[7:0], v[15:8], v[23:16], v[31:24]` of a 32-bit control register (R54, R192). -/
def registerBytes (v : BitVec 32) : List Byte :=
  [v.extractLsb' 0 8, v.extractLsb' 8 8, v.extractLsb' 16 8, v.extractLsb' 24 8]

/-- What reading a control register returns (R28, R54, R192). A read has no side effect. -/
def State.controlRegBytes (s : State) : ControlReg → List Byte
  | .STATUS => registerBytes s.statusWord
  | .FCW => registerBytes s.FCW
  | .CFG_W => registerBytes (BitVec.ofNat 32 s.cfg.w)
  | .CFG_R => registerBytes (BitVec.ofNat 32 s.cfg.r)
  | .CFG_B => registerBytes (BitVec.ofNat 32 s.cfg.b)
  | .CFG_P => toBytes s.cfg.P
  | .CFG_Q => toBytes s.cfg.Q

/-- NOP (R190): no state change of any kind; it runs when halted too. -/
def execNop (s : State) : Host.Outcome State Fault Refusal :=
  command true 0 (.ok (s, [])) s

/-- SRST (R191): the reset state; it runs when halted too, and leaves the halted state (R223). -/
def execSrst (s : State) : Host.Outcome State Fault Refusal :=
  command true 0 (.ok (s.resetEngine, [])) s

/-- CRD (R192): it runs when halted too, if the register exists. -/
def execCrd (idx : Nat) (s : State) : Host.Outcome State Fault Refusal :=
  command (decide (idx ≤ 6)) 0
    (afterCheck (controlReg idx) fun reg => .ok (s, s.controlRegBytes reg)) s

/-- SRD (R193): the state of the table is checked before the index (R220). -/
def execSrd (idx : Nat) (s : State) : Host.Outcome State Fault Refusal :=
  command false 0
    (afterCheck (requireWritten s.SST) fun _ =>
      afterCheck (tableElement s.S idx) fun v => .ok (s, toBytes v)) s

/-- LRD (R194): the state of the table is checked before the index (R220). -/
def execLrd (idx : Nat) (s : State) : Host.Outcome State Fault Refusal :=
  command false 0
    (afterCheck (requireWritten s.LST) fun _ =>
      afterCheck (tableElement s.L idx) fun v => .ok (s, toBytes v)) s

/-- SMV (R195): the state of the table is checked before the index (R220). -/
def execSmv (rd : Reg) (idx : Nat) (s : State) : Host.Outcome State Fault Refusal :=
  command false 0
    (afterCheck (requireWritten s.SST) fun _ =>
      afterCheck (tableElement s.S idx) fun v => .ok (s.setReg rd v, [])) s

end Sys2Proof.Machine
end

