-- ==== Sys2Proof/Machine/Dispatch.lean ====
section
/-! DEFINITION. The meaning of every command: one arm per constructor of `Instr`. -/

namespace Sys2Proof.Machine

def exec (i : Instr) (s : State) : Host.Outcome State Fault Refusal :=
  match i with
  | .nop => Sys2Proof.Machine.execNop s
  | .srst => Sys2Proof.Machine.execSrst s
  | .crd idx => Sys2Proof.Machine.execCrd idx s
  | .keyld => Sys2Proof.Machine.execKeyld s
  | .linit => Sys2Proof.Machine.execLinit s
  | .sinit => Sys2Proof.Machine.execSinit s
  | .mix => Sys2Proof.Machine.execMix s
  | .expand => Sys2Proof.Machine.execExpand s
  | .enc => Sys2Proof.Machine.execEnc s
  | .dec => Sys2Proof.Machine.execDec s
  | .add rd rs1 rs2 => Sys2Proof.Machine.execAdd rd rs1 rs2 s
  | .sub rd rs1 rs2 => Sys2Proof.Machine.execSub rd rs1 rs2 s
  | .xor rd rs1 rs2 => Sys2Proof.Machine.execXor rd rs1 rs2 s
  | .rotl rd rs1 rs2 => Sys2Proof.Machine.execRotl rd rs1 rs2 s
  | .rotr rd rs1 rs2 => Sys2Proof.Machine.execRotr rd rs1 rs2 s
  | .wld rd => Sys2Proof.Machine.execWld rd s
  | .wst rs1 => Sys2Proof.Machine.execWst rs1 s
  | .blkld => Sys2Proof.Machine.execBlkld s
  | .blkst => Sys2Proof.Machine.execBlkst s
  | .srd idx => Sys2Proof.Machine.execSrd idx s
  | .lrd idx => Sys2Proof.Machine.execLrd idx s
  | .smv rd idx => Sys2Proof.Machine.execSmv rd idx s

end Sys2Proof.Machine
end

