-- ==== Sys2Proof/Machine/Step.lean ====
section
/-! DEFINITION. One step: the host's next event is processed whole (R14, R59). The engine has no program
counter and fetches nothing (R26): the host presents each command word (R70). -/

namespace Sys2Proof.Machine

/-- One step (R70, R83, R240). With no event pending the engine holds its state (R231). -/
def step (s : State) : Host.Outcome State Fault Refusal :=
  match s.inputs with
  | [] => idle s
  | .hardwareReset :: _ => hardwareReset s
  | .transaction cw _ :: _ =>
    match decode cw with
    | .ok i => exec i s
    | .error _ => illegalCommand s

/-- The host presents this command word next, before anything it already had in mind. The payload, like every
bit above `nbits`, is zeros: as many bytes as the command takes (R76; log entry 8). -/
def State.withFetchWord (s : State) (nbits w : Nat) : State :=
  { s with
    inputs :=
      .transaction (BitVec.ofNat 32 (w % 2 ^ nbits))
        (match decodeTableWord nbits w with
         | some i => List.replicate (nIn s.cfg i) 0
         | none => []) :: s.inputs }

end Sys2Proof.Machine
end

