-- ==== Sys2Proof/Machine/Assembly.lean ====
section
/-! DEFINITION. The written form of commands (R80) and the pseudo-instructions (R81), each a fixed sequence of
transactions with no encoding of its own: both as a printer and as a reader of one line. Nothing here is run by
`step`; an index is printed in decimal, one of the three spellings R80 allows, and read in all three (log entry
20). -/

namespace Sys2Proof.Machine

/-! ## Assembler notation (R80) -/

/-- A register operand as text. -/
def regText : Reg → String
  | .A => "A"
  | .B => "B"

/-- A control register operand as text: its name for 0 to 6, else the number. -/
def controlRegText : Nat → String
  | 0 => "STATUS"
  | 1 => "FCW"
  | 2 => "CFG_W"
  | 3 => "CFG_R"
  | 4 => "CFG_B"
  | 5 => "CFG_P"
  | 6 => "CFG_Q"
  | n => toString n

/-- One hexadecimal digit, lower case. -/
def hexDigit (n : Nat) : String :=
  ["0", "1", "2", "3", "4", "5", "6", "7", "8", "9", "a", "b", "c", "d", "e", "f"].getD (n % 16) "0"

/-- A byte as a pair of hexadecimal digits. -/
def hexPair (byte : Byte) : String := hexDigit (byte.toNat / 16) ++ hexDigit byte.toNat

/-- A byte string in transmission order inside angle brackets (R10). -/
def bytesText (bytes : List Byte) : String := "<" ++ String.join (bytes.map hexPair) ++ ">"

/-- The operands of format R. -/
def threeRegText (name : String) (rd rs1 rs2 : Reg) : String :=
  name ++ " " ++ regText rd ++ ", " ++ regText rs1 ++ ", " ++ regText rs2

/-- A command and its payload as text (R80). -/
def assemblyText (i : Instr) (payload : List Byte) : String :=
  match i with
  | .nop => "NOP"
  | .srst => "SRST"
  | .crd idx => "CRD " ++ controlRegText idx
  | .keyld => "KEYLD " ++ bytesText payload
  | .linit => "LINIT"
  | .sinit => "SINIT"
  | .mix => "MIX"
  | .expand => "EXPAND"
  | .enc => "ENC"
  | .dec => "DEC"
  | .add rd rs1 rs2 => threeRegText "ADD" rd rs1 rs2
  | .sub rd rs1 rs2 => threeRegText "SUB" rd rs1 rs2
  | .xor rd rs1 rs2 => threeRegText "XOR" rd rs1 rs2
  | .rotl rd rs1 rs2 => threeRegText "ROTL" rd rs1 rs2
  | .rotr rd rs1 rs2 => threeRegText "ROTR" rd rs1 rs2
  | .wld rd => "WLD " ++ regText rd ++ " " ++ bytesText payload
  | .wst rs1 => "WST " ++ regText rs1
  | .blkld => "BLKLD " ++ bytesText payload
  | .blkst => "BLKST"
  | .srd idx => "SRD " ++ toString idx
  | .lrd idx => "LRD " ++ toString idx
  | .smv rd idx => "SMV " ++ regText rd ++ ", " ++ toString idx

/-- A response as a trace shows it (R80). -/
def responseText (resp : Response) : String :=
  "-> 0x" ++ hexPair resp.rc ++ (if resp.out = [] then "" else " " ++ bytesText resp.out)

/-! ## Pseudo-instructions (R81) -/

/-- The pseudo-instructions of R81. -/
inductive Pseudo where
  | clr (rd : Reg)
  | mov (rd rs : Reg)
  | rdstat
  | ksched
  | rekey (key : List Byte)
  | encblk (block : List Byte)
  | decblk (block : List Byte)
  deriving DecidableEq, Repr

/-- The commands of a pseudo-instruction with their payloads (R81). -/
def Pseudo.commands : Pseudo → List (Instr × List Byte)
  | .clr rd => [(.xor rd rd rd, [])]
  | .mov rd rs => if rd = rs then [] else [(.xor rd rd rd, []), (.add rd rd rs, [])]
  | .rdstat => [(.crd 0, [])]
  | .ksched => [(.linit, []), (.sinit, []), (.mix, [])]
  | .rekey key => [(.keyld, key), (.expand, [])]
  | .encblk block => [(.blkld, block), (.enc, []), (.blkst, [])]
  | .decblk block => [(.blkld, block), (.dec, []), (.blkst, [])]

/-! ## Reading a line (R80, R81) -/

/-- The value of a hexadecimal digit, in either case. -/
def hexValue (ch : Char) : Option Nat :=
  if '0' ≤ ch ∧ ch ≤ '9' then some (ch.toNat - '0'.toNat)
  else if 'a' ≤ ch ∧ ch ≤ 'f' then some (ch.toNat - 'a'.toNat + 10)
  else if 'A' ≤ ch ∧ ch ≤ 'F' then some (ch.toNat - 'A'.toNat + 10)
  else none

/-- A digit string in a base, most significant digit first; `acc` is what the digits before it are worth. -/
def readDigits (base acc : Nat) : List Char → Option Nat
  | [] => some acc
  | ch :: rest =>
    match hexValue ch with
    | some d => if d < base then readDigits base (base * acc + d) rest else none
    | none => none

/-- An index: decimal, or hexadecimal after `0x`. -/
def readNumber : List Char → Option Nat
  | [] => none
  | ['0', 'x'] => none
  | '0' :: 'x' :: digits => readDigits 16 0 digits
  | digits => readDigits 10 0 digits

/-- An index that fits its field (R71, R74). -/
def readIndex (word : String) : Option Nat :=
  match readNumber word.toList with
  | some idx => if indexFits idx then some idx else none
  | none => none

/-- The operand of CRD: one of the seven names, or an index. -/
def readControlReg (word : String) : Option Nat :=
  match (List.range 7).find? fun idx => controlRegText idx == word with
  | some idx => some idx
  | none => readIndex word

/-- A register operand. -/
def readReg (word : String) : Option Reg :=
  if word = "A" then some .A else if word = "B" then some .B else none

/-- Hexadecimal digit pairs up to the closing bracket. -/
def readPairs : List Char → Option (List Byte)
  | ['>'] => some []
  | hi :: lo :: rest =>
    match hexValue hi, hexValue lo, readPairs rest with
    | some h, some l, some bytes => some (BitVec.ofNat 8 (16 * h + l) :: bytes)
    | _, _, _ => none
  | _ => none

/-- A payload inside angle brackets; `<>` is the empty one. -/
def readBytes (word : String) : Option (List Byte) :=
  match word.toList with
  | '<' :: rest => readPairs rest
  | _ => none

/-- The words of a line, a comma being a word of its own, without the comment that `;` begins. -/
def lineWords (line : String) : List String :=
  let spaced := (line.toList.takeWhile (· != ';')).flatMap fun ch => if ch = ',' then [' ', ',', ' '] else [ch]
  ((spaced.splitOnP (· == ' ')).filter (· ≠ [])).map String.ofList

/-- Three register operands. -/
def readThreeRegs (build : Reg → Reg → Reg → Instr) (rd rs1 rs2 : String) : Option (List (Instr × List Byte)) :=
  match readReg rd, readReg rs1, readReg rs2 with
  | some rd, some rs1, some rs2 => some [(build rd rs1 rs2, [])]
  | _, _, _ => none

/-- The commands that a line stands for, with their payloads: one for a command (R80), its expansion for a
pseudo-instruction (R81). -/
def readLine (line : String) : Option (List (Instr × List Byte)) :=
  match lineWords line with
  | ["NOP"] => some [(.nop, [])]
  | ["SRST"] => some [(.srst, [])]
  | ["CRD", reg] => (readControlReg reg).map fun idx => [(.crd idx, [])]
  | ["KEYLD", key] => (readBytes key).map fun bytes => [(.keyld, bytes)]
  | ["LINIT"] => some [(.linit, [])]
  | ["SINIT"] => some [(.sinit, [])]
  | ["MIX"] => some [(.mix, [])]
  | ["EXPAND"] => some [(.expand, [])]
  | ["ENC"] => some [(.enc, [])]
  | ["DEC"] => some [(.dec, [])]
  | ["ADD", rd, ",", rs1, ",", rs2] => readThreeRegs .add rd rs1 rs2
  | ["SUB", rd, ",", rs1, ",", rs2] => readThreeRegs .sub rd rs1 rs2
  | ["XOR", rd, ",", rs1, ",", rs2] => readThreeRegs .xor rd rs1 rs2
  | ["ROTL", rd, ",", rs1, ",", rs2] => readThreeRegs .rotl rd rs1 rs2
  | ["ROTR", rd, ",", rs1, ",", rs2] => readThreeRegs .rotr rd rs1 rs2
  | ["WLD", rd, word] =>
    match readReg rd, readBytes word with
    | some rd, some bytes => some [(.wld rd, bytes)]
    | _, _ => none
  | ["WST", rs] => (readReg rs).map fun rs1 => [(.wst rs1, [])]
  | ["BLKLD", block] => (readBytes block).map fun bytes => [(.blkld, bytes)]
  | ["BLKST"] => some [(.blkst, [])]
  | ["SRD", idx] => (readIndex idx).map fun idx => [(.srd idx, [])]
  | ["LRD", idx] => (readIndex idx).map fun idx => [(.lrd idx, [])]
  | ["SMV", rd, ",", idx] =>
    match readReg rd, readIndex idx with
    | some rd, some idx => some [(.smv rd idx, [])]
    | _, _ => none
  | ["CLR", rd] => (readReg rd).map fun rd => (Pseudo.clr rd).commands
  | ["MOV", rd, ",", rs] =>
    match readReg rd, readReg rs with
    | some rd, some rs => some (Pseudo.mov rd rs).commands
    | _, _ => none
  | ["RDSTAT"] => some Pseudo.rdstat.commands
  | ["KSCHED"] => some Pseudo.ksched.commands
  | ["REKEY", key] => (readBytes key).map fun bytes => (Pseudo.rekey bytes).commands
  | ["ENCBLK", block] => (readBytes block).map fun bytes => (Pseudo.encblk bytes).commands
  | ["DECBLK", block] => (readBytes block).map fun bytes => (Pseudo.decblk bytes).commands
  | _ => none

/-! ## Transactions -/

/-- The transaction that issues a command with a payload. -/
def issue (x : Instr × List Byte) : HostEvent := .transaction (encode x.1) x.2

/-- The transactions of a pseudo-instruction, in order. -/
def Pseudo.events (p : Pseudo) : List HostEvent := p.commands.map issue

end Sys2Proof.Machine
end

