-- ==== Sys2Proof/Safety.lean ====
section
/-! DEFINITION. The terms claims are stated in: what a safe state is, views of the storage that two states can
be compared by, the tables of which command writes what (R21 to R25), the invariant of the machine (R33, R38),
the relation of two states that differ in storage nothing may read (R36), and the functions of the spec written
a second time, from its listings, on lists and with Lean's own word operations, for the statements that compare
the model with them. -/

namespace Sys2Proof.Machine

/-! ## Safe states and views -/

/-- No command has faulted since reset: the engine is not halted (R222). A run is safe when every state of it
is. -/
abbrev State.Safe (s : State) : Prop := s.FAULT = false

/-- The engine is halted (R222). -/
abbrev State.Halted (s : State) : Prop := s.FAULT = true

/-- A block register read as a number. -/
def State.regNat (s : State) (r : Reg) : Nat := (s.reg r).toNat

/-- The key buffer read as bytes. -/
def State.keyBytes (s : State) : List Byte := s.KEY.toList

/-- The L-table read as numbers. -/
def State.lWords (s : State) : List Nat := s.L.toList.map BitVec.toNat

/-- The S-table read as numbers. -/
def State.sWords (s : State) : List Nat := s.S.toList.map BitVec.toNat

/-- What R36 says of a state after reset. It says nothing of the contents of KEY, L and S. -/
def State.HasResetValues (s : State) : Prop :=
  s.A = 0 ∧ s.B = 0 ∧ s.KL = false ∧ s.LST = .empty ∧ s.SST = .empty ∧ s.FAULT = false ∧ s.FCODE = 0 ∧
    s.statusWord = 0x00000000 ∧ s.FCW = 0x00000000

/-! ## Which command writes what (R21 to R25, R33) -/

/-- The writers of a block register (R21). -/
def writesReg : Instr → Reg → Bool
  | .wld rd, r => decide (rd = r)
  | .add rd _ _, r => decide (rd = r)
  | .sub rd _ _, r => decide (rd = r)
  | .xor rd _ _, r => decide (rd = r)
  | .rotl rd _ _, r => decide (rd = r)
  | .rotr rd _ _, r => decide (rd = r)
  | .smv rd _, r => decide (rd = r)
  | .blkld, _ => true
  | .enc, _ => true
  | .dec, _ => true
  | .srst, _ => true
  | .nop, _ => false
  | .crd _, _ => false
  | .keyld, _ => false
  | .linit, _ => false
  | .sinit, _ => false
  | .mix, _ => false
  | .expand, _ => false
  | .wst _, _ => false
  | .blkst, _ => false
  | .srd _, _ => false
  | .lrd _, _ => false

/-- The writers of KEY and KL (R22, R25); SRST leaves KEY unspecified (R36). -/
abbrev WritesKey (i : Instr) : Prop := i = .keyld ∨ i = .srst

/-- The writers of L and LST (R23, R25, R33). -/
abbrev WritesL (i : Instr) : Prop := i = .linit ∨ i = .mix ∨ i = .expand ∨ i = .srst

/-- The writers of S and SST (R24, R25, R33). -/
abbrev WritesS (i : Instr) : Prop := i = .sinit ∨ i = .mix ∨ i = .expand ∨ i = .srst

/-! ## The invariant (R33, R38) -/

/-- What holds in every reachable state: the fault record (R38, R217, R218), the order in which the stores are
built (R33, R38), and what a table in state INIT or MIXED holds (R33). That every word is below `2^w` and every
table has its length holds by the types (R20, R218). -/
structure State.Inv (s : State) : Prop where
  fcode_zero_iff : s.FCODE = 0 ↔ s.FAULT = false
  fcode_produced : s.FCODE.toNat ≤ 5 ∨ s.FCODE.toNat = 8
  fcw_zero : s.FAULT = false → s.FCW = 0
  l_written_of_s_mixed : s.SST = .mixed → s.LST ≠ .empty
  key_loaded_of_l_written : s.LST ≠ .empty → s.KL = true
  l_init : s.LST = .init → ∃ key : Vector Byte s.cfg.b, s.L = linit s.cfg key
  s_init : s.SST = .init → s.S = sinit s.cfg
  l_mixed : s.LST = .mixed → ∃ key : Vector Byte s.cfg.b, s.L = (schedule s.cfg key).1
  s_mixed : s.SST = .mixed → ∃ key : Vector Byte s.cfg.b, s.S = (schedule s.cfg key).2

/-! ## Storage nothing may read (R36) -/

/-- The two states are the same but for the contents of a key buffer with KL = 0 and of tables in state EMPTY,
the contents R36 calls unspecified and not readable. -/
def State.SameButUnwritten (s s' : State) : Prop :=
  ∃ (KEY : Vector Byte s.cfg.b) (L : Vector (Word s.cfg.w) s.cfg.c) (S : Vector (Word s.cfg.w) s.cfg.t),
    s' = { s with KEY := KEY, L := L, S := S } ∧
      (s.KL = true → KEY = s.KEY) ∧ (s.LST ≠ .empty → L = s.L) ∧ (s.SST ≠ .empty → S = s.S)

/-! ## The listings of the spec, written a second time -/

section Listings

variable {w : Nat}

/-- Entry `i` of S-table init by its closed form `P + i·Q (mod 2^w)` (R145). -/
def listingSinit (cfg : Config) : List (Word cfg.w) :=
  (List.range cfg.t).map fun i => BitVec.ofNat cfg.w (cfg.P.toNat + i * cfg.Q.toNat)

/-- Entry `k` of L-table init: the `u` bytes from `k·u`, zeros beyond the key, as a little-endian number
reduced `mod 2^w` (R143, R120). -/
def listingLinit (cfg : Config) (key : List Byte) : List (Word cfg.w) :=
  (List.range cfg.c).map fun k =>
    BitVec.ofNat cfg.w ((List.range cfg.u).map fun m => (key.getD (k * cfg.u + m) 0).toNat * 2 ^ (8 * m)).sum

/-- The loop body of the mixing pass for iteration `n` on `(S, L, MA, MB)`, its indices `n mod t` and `n mod c`
(R147, R150). -/
def listingMixBody (t c : Nat) (x : List (Word w) × List (Word w) × Word w × Word w) (n : Nat) :
    List (Word w) × List (Word w) × Word w × Word w :=
  let MA := (x.1.getD (n % t) 0 + x.2.2.1 + x.2.2.2).rotateLeft 3
  let MB := (x.2.1.getD (n % c) 0 + MA + x.2.2.2).rotateLeft (MA + x.2.2.2).toNat
  (x.1.set (n % t) MA, x.2.1.set (n % c) MB, MA, MB)

/-- The mixing pass, `3·max(t, c)` iterations (R147): the L-table and the S-table as rewritten. -/
def listingMix (cfg : Config) (L S : List (Word cfg.w)) : List (Word cfg.w) × List (Word cfg.w) :=
  let x := (List.range (3 * max cfg.t cfg.c)).foldl (listingMixBody cfg.t cfg.c) (S, L, 0, 0)
  (x.2.1, x.1)

/-- `encrypt` as R171 lists it, rounds `1 .. r`. -/
def listingEncrypt (r : Nat) (S : List (Word w)) (A B : Word w) : Word w × Word w :=
  (List.range' 1 r).foldl
    (fun x i =>
      let A := (x.1 ^^^ x.2).rotateLeft x.2.toNat + S.getD (2 * i) 0
      let B := (x.2 ^^^ A).rotateLeft A.toNat + S.getD (2 * i + 1) 0
      (A, B))
    (A + S.getD 0 0, B + S.getD 1 0)

/-- `decrypt` as R172 lists it, rounds `r` downto `1`. -/
def listingDecrypt (r : Nat) (S : List (Word w)) (A B : Word w) : Word w × Word w :=
  let x := (List.range' 1 r).reverse.foldl
    (fun x i =>
      let B := (x.2 - S.getD (2 * i + 1) 0).rotateRight x.1.toNat ^^^ x.1
      let A := (x.1 - S.getD (2 * i) 0).rotateRight B.toNat ^^^ B
      (A, B))
    (A, B)
  (x.1 - S.getD 0 0, x.2 - S.getD 1 0)

end Listings

/-! ## The transaction function of R70 and R83, written a second time -/

/-- The complete list of state preconditions (R243), with the fault each raises (R213 to R215). -/
def preconditionFault (s : State) : Instr → Option FaultCode
  | .linit | .expand => if s.KL = true then none else some .keyNotLoaded
  | .mix => if s.LST = .init ∧ s.SST = .init then none else some .sequenceError
  | .enc | .dec => if s.SST = .mixed then none else some .tableNotReady
  | .srd _ | .smv _ _ => if s.SST = .empty then some .tableNotReady else none
  | .lrd _ => if s.LST = .empty then some .tableNotReady else none
  | .nop | .srst | .crd _ | .keyld | .sinit | .add _ _ _ | .sub _ _ _ | .xor _ _ _ | .rotl _ _ _ | .rotr _ _ _
  | .wld _ | .wst _ | .blkld | .blkst => none

/-- The index ranges (R216). -/
def indexFault (s : State) : Instr → Option FaultCode
  | .srd idx | .smv _ idx => if idx < s.cfg.t then none else some .indexRange
  | .lrd idx => if idx < s.cfg.c then none else some .indexRange
  | .crd idx => if idx ≤ 6 then none else some .indexRange
  | .nop | .srst | .keyld | .linit | .sinit | .mix | .expand | .enc | .dec | .add _ _ _ | .sub _ _ _ | .xor _ _ _
  | .rotl _ _ _ | .rotr _ _ _ | .wld _ | .wst _ | .blkld | .blkst => none

/-- A list of words as a table of `n` words. -/
def asTable {w : Nat} (n : Nat) (words : List (Word w)) : Vector (Word w) n := Vector.ofFn fun k => words.getD k.val 0

/-- What each command does when it executes normally: its rule, with the payload given as an argument. -/
def commandEffect (s : State) (inp : List Byte) : Instr → State × List Byte
  | .nop => (s, [])
  | .srst => (s.resetEngine, [])
  | .crd 0 => (s, toBytes (w := 32) s.statusWord)
  | .crd 1 => (s, toBytes (w := 32) s.FCW)
  | .crd 2 => (s, toBytes (w := 32) (BitVec.ofNat 32 s.cfg.w))
  | .crd 3 => (s, toBytes (w := 32) (BitVec.ofNat 32 s.cfg.r))
  | .crd 4 => (s, toBytes (w := 32) (BitVec.ofNat 32 s.cfg.b))
  | .crd 5 => (s, toBytes s.cfg.P)
  | .crd _ => (s, toBytes s.cfg.Q)
  | .keyld => ({ s with KEY := Vector.ofFn fun k => inp.getD k.val 0, KL := true }, [])
  | .linit => ({ s with L := asTable s.cfg.c (listingLinit s.cfg s.KEY.toList), LST := .init }, [])
  | .sinit => ({ s with S := asTable s.cfg.t (listingSinit s.cfg), SST := .init }, [])
  | .mix =>
    let x := listingMix s.cfg s.L.toList s.S.toList
    ({ s with L := asTable s.cfg.c x.1, S := asTable s.cfg.t x.2, LST := .mixed, SST := .mixed }, [])
  | .expand =>
    let x := listingMix s.cfg (listingLinit s.cfg s.KEY.toList) (listingSinit s.cfg)
    ({ s with L := asTable s.cfg.c x.1, S := asTable s.cfg.t x.2, LST := .mixed, SST := .mixed }, [])
  | .enc =>
    let x := listingEncrypt s.cfg.r s.S.toList s.A s.B
    ({ s with A := x.1, B := x.2 }, [])
  | .dec =>
    let x := listingDecrypt s.cfg.r s.S.toList s.A s.B
    ({ s with A := x.1, B := x.2 }, [])
  | .add rd rs1 rs2 => (s.setReg rd (s.reg rs1 + s.reg rs2), [])
  | .sub rd rs1 rs2 => (s.setReg rd (s.reg rs1 - s.reg rs2), [])
  | .xor rd rs1 rs2 => (s.setReg rd (s.reg rs1 ^^^ s.reg rs2), [])
  | .rotl rd rs1 rs2 => (s.setReg rd ((s.reg rs1).rotateLeft (s.reg rs2).toNat), [])
  | .rotr rd rs1 rs2 => (s.setReg rd ((s.reg rs1).rotateRight (s.reg rs2).toNat), [])
  | .wld rd => (s.setReg rd (fromBytes s.cfg.w inp), [])
  | .wst rs1 => (s, toBytes (s.reg rs1))
  | .blkld => ({ s with A := fromBytes s.cfg.w (inp.take s.cfg.u), B := fromBytes s.cfg.w (inp.drop s.cfg.u) }, [])
  | .blkst => (s, toBytes s.A ++ toBytes s.B)
  | .srd idx => (s, toBytes (s.S.toList.getD idx 0))
  | .lrd idx => (s, toBytes (s.L.toList.getD idx 0))
  | .smv rd idx => (s.setReg rd (s.S.toList.getD idx 0), [])

/-- `raise F(cw)` as R221 lists it: the state with the fault recorded, `rc = k`, `out = <>`. -/
def transactionFault (s : State) (cw : CommandWord) (f : FaultCode) : State × Response :=
  ({ s with FAULT := true, FCODE := f.code, FCW := cw }, ⟨f.code, []⟩)

/-- `step(state, cw, inp)` as R83 lists it, its six steps in order. The queue and the answers already given are
no part of it. -/
def transaction (s : State) (cw : CommandWord) (inp : List Byte) : State × Response :=
  match decode cw with
  | .error _ => if s.FAULT = true then (s, ⟨0x80, []⟩) else transactionFault s cw .illegalCommand
  | .ok i =>
    if s.FAULT = true ∧ ¬ (runsWhenHalted i = true ∧ inp.length = 0) then (s, ⟨0x80, []⟩)
    else if inp.length ≠ nIn s.cfg i then transactionFault s cw .payloadLength
    else
      match preconditionFault s i, indexFault s i with
      | some f, _ => transactionFault s cw f
      | none, some f => transactionFault s cw f
      | none, none => ((commandEffect s inp i).1, ⟨0x00, (commandEffect s inp i).2⟩)

end Sys2Proof.Machine
end

