-- ==== Sys2Proof/Certificates/Slice0/Obligations.lean ====
section
/-! DEFINITION. The statements made of the model, each from a rule of the spec. Every word-valued quantity is over
an arbitrary instance `cfg`, so each statement holds for every `w`, `r`, `b`, `P`, `Q` the spec admits. -/

open Sys2Proof Sys2Proof.Machine

/-! ## The command word -/

/-- Words written in R80 and in 96_test_programs.md section 6 decode to the commands they stand for, one word at
least for each family, and words the spec lists as illegal, there and in R212 and R220 (0x7F000000), do not decode. The
name of the cause each is rejected under is the model's choice (log entry 13); the spec says that they decode to none. -/
def Obligations.WordsOfTheSpecDecode : Prop :=
  decode 0x00000000 = .ok .nop ∧ decode 0x01000000 = .ok .srst ∧ decode 0x02000006 = .ok (.crd 6) ∧
    decode 0x14000000 = .ok .expand ∧ decode 0x21000000 = .ok .dec ∧ decode 0x30200000 = .ok (.add .A .A .B) ∧
    decode 0x33A00000 = .ok (.rotl .B .A .B) ∧ decode 0x40800000 = .ok (.wld .B) ∧
    decode 0x41400000 = .ok (.wst .B) ∧ decode 0x50000019 = .ok (.srd 25) ∧ decode 0x51000003 = .ok (.lrd 3) ∧
    decode 0x52800001 = .ok (.smv .B 1) ∧ decode 0x7F000000 = .error .unassignedOp ∧
    decode 0x01010000 = .error .reservedField ∧ decode 0x20000001 = .error .unusedField

/-- Decoding the word of a well-formed command gives the command back, every operand at every value (R71, R77). -/
def Obligations.DecodeOfEncode : Prop :=
  ∀ i : Instr, i.WellFormed → decode (encode i) = .ok i

/-- Every word that decodes is the word of exactly the command it decodes to: no bit of a legal word is ignored. -/
def Obligations.EncodeOfDecode : Prop :=
  ∀ (cw : CommandWord) (i : Instr), decode cw = .ok i → i.WellFormed ∧ encode i = cw

/-- R77. `decode(cw)` is the row of R75 with `cw & mask = match`, or none; at most one row matches, since the `op`
values are distinct and every mask includes bits 31:24; the operands are the fields the rule names. -/
def Obligations.DecodeSelectsTheOneRow : Prop :=
  (opcodeTable.map OpRow.op).Nodup ∧ opcodeTable.length = 22 ∧
    (∀ row ∈ opcodeTable, row.mask &&& 0xFF000000 = 0xFF000000) ∧
    (∀ cw, ∀ row ∈ opcodeTable, cw &&& row.mask = row.pattern → decode cw = .ok (row.build cw)) ∧
    (∀ cw, ∀ row ∈ opcodeTable, ∀ row' ∈ opcodeTable,
      cw &&& row.mask = row.pattern → cw &&& row'.mask = row'.pattern → row.op = row'.op) ∧
    (∀ cw, (∀ row ∈ opcodeTable, cw &&& row.mask ≠ row.pattern) → ∃ e, decode cw = .error e) ∧
    (∀ cw : CommandWord, operandRd cw = (if cw.getLsbD 23 then .B else .A) ∧
      operandRs1 cw = (if cw.getLsbD 22 then .B else .A) ∧ operandRs2 cw = (if cw.getLsbD 21 then .B else .A) ∧
      idxField cw = (cw.extractLsb' 0 16).toNat)

/-- R78. A word is legal exactly when its `op` is assigned, its `z` field is 0 and every field its format does not
use is 0. The unassigned `op` values are the 234 the rule lists, only the word 0 is NOP, and every word that is not
legal raises IllegalCommand (code 1) when issued to an engine that is not halted. -/
def Obligations.LegalWordsByFields : Prop :=
  (∀ cw, (∃ i, decode cw = .ok i) ↔
    ∃ row ∈ opcodeTable, opField cw = row.op ∧ zField cw = 0 ∧ (usesRd row.format = false → rdField cw = 0) ∧
      (usesRs1 row.format = false → rs1Field cw = 0) ∧ (usesRs2 row.format = false → rs2Field cw = 0) ∧
      (usesIdx row.format = false → idxField cw = 0)) ∧
    (∀ op, op < 256 → ((∀ row ∈ opcodeTable, row.op ≠ op) ↔ (0x03 ≤ op ∧ op ≤ 0x0F) ∨ (0x15 ≤ op ∧ op ≤ 0x1F) ∨
      (0x22 ≤ op ∧ op ≤ 0x2F) ∨ (0x35 ≤ op ∧ op ≤ 0x3F) ∨ (0x44 ≤ op ∧ op ≤ 0x4F) ∨ 0x53 ≤ op)) ∧
    ((List.range 256).filter fun op => opcodeTable.all fun row => row.op != op).length = 234 ∧
    (∀ cw, decode cw = .ok .nop → cw = 0) ∧
    (∀ (s : State) cw inp rest, s.inputs = .transaction cw inp :: rest → s.FAULT = false →
      (¬ ∃ i, decode cw = .ok i) →
        step s = .next { s with FAULT := true, FCODE := 0x01, FCW := cw, inputs := rest
                                responses := s.responses ++ [⟨0x01, []⟩] })

/-! ## The machine -/

/-- A transaction whose word decodes to `i` is processed by exactly the meaning of `i`: `step` adds nothing around
`exec`, and there is no program counter to advance (R26, R59, R70). -/
def Obligations.StepRunsTheDecodedCommand : Prop :=
  ∀ (s : State) cw inp rest i, s.inputs = .transaction cw inp :: rest → decode cw = .ok i →
    step s = exec i s ∧ s.cw = cw ∧ s.payload = inp

/-- With no host event pending the engine keeps its state (R231, R241). The idle step is the model's reading, log
entry 7. -/
def Obligations.EngineIdlesWithoutEvents : Prop :=
  ∀ s : State, s.inputs = [] → step s = .next s

/-- R250. Every step, from every state, for every command word and payload, answers a next state: none faults, none
is refused, none runs on. -/
def Obligations.StepIsTotal : Prop :=
  ∀ s : State, ∃ t, step s = .next t

/-- R82. A transaction leaves the queue and gets exactly one response; its code is `0x00` (executed), the code of
the fault raised (1 to 5 or 8; the engine is then halted and FCODE holds the code), or `0x80` (the engine was
halted and nothing changed). The instance never changes (R5, R31). -/
def Obligations.OneResponseWithALegalCode : Prop :=
  ∀ (s : State) cw inp rest, s.inputs = .transaction cw inp :: rest →
    ∃ (t : State) (rc : BitVec 8) (out : List Byte), step s = .next t ∧ t.cfg = s.cfg ∧ t.inputs = rest ∧
      t.responses = s.responses ++ [⟨rc, out⟩] ∧
      ((rc = 0x00 ∧ ∃ i, decode cw = .ok i ∧ out.length = nOut s.cfg i ∧ (t.FAULT = s.FAULT ∨ i = .srst)) ∨
        (rc ∈ ([0x01, 0x02, 0x03, 0x04, 0x05, 0x08] : List (BitVec 8)) ∧ out = [] ∧ s.FAULT = false ∧
          t.FAULT = true ∧ t.FCODE = rc ∧ t.FCW = cw) ∨
        (rc = 0x80 ∧ out = [] ∧ s.FAULT = true ∧
          t = { s with inputs := rest, responses := s.responses ++ [⟨0x80, []⟩] }))

/-- R83. A step on a transaction is the transaction function the spec lists: halted check, decode, payload length,
state precondition, index, execution, the first that ends it deciding the response; `raise F(cw)` as R221 lists it.
`transaction` (Safety.lean) is written from the listings, with Lean's own word operations and on lists. -/
def Obligations.StepFollowsTheListedOrderOfChecks : Prop :=
  ∀ (s : State) cw inp rest, s.inputs = .transaction cw inp :: rest →
    step s = .next { (transaction s cw inp).1 with
                     inputs := rest, responses := s.responses ++ [(transaction s cw inp).2] }

/-- R36, R241. `State.reset`, the state after SRST and the state after hardware reset have the values the spec lists;
the configuration is untouched. It says nothing of KEY, L and S, which the spec leaves unspecified; that `State.reset`
is RC5-32/12/16 is the model's choice (log entry 1) and no part of it. That hardware reset keeps the host's pending
events and answers nothing is the model's choice too (log entry 21), stated in the last clause. -/
def Obligations.ResetStatesHaveTheListedValues : Prop :=
  State.reset.HasResetValues ∧ (∀ cfg, (State.resetOf cfg).HasResetValues ∧ (State.resetOf cfg).cfg = cfg) ∧
    (∀ s : State, s.payload = [] → ∃ t, exec .srst s = .next t ∧ t.HasResetValues ∧ t.cfg = s.cfg) ∧
    (∀ (s : State) rest, s.inputs = .hardwareReset :: rest →
      ∃ t, step s = .next t ∧ t.HasResetValues ∧ t.cfg = s.cfg ∧ t.inputs = rest ∧ t.responses = s.responses)

/-! ## Faults -/

/-- R221. A command that faults records FAULT, the code and the command word, answers the code and an empty output,
and changes nothing else. Stated of every step: if the engine was not halted before and is halted after, the state
after is the state before with the fault recorded and answered. -/
def Obligations.FaultEntryChangesNothingElse : Prop :=
  ∀ s t : State, step s = .next t → s.FAULT = false → t.FAULT = true →
    ∃ (f : FaultCode) (cw : CommandWord) (inp : List Byte) (rest : List HostEvent),
      s.inputs = .transaction cw inp :: rest ∧
        t = { s with FAULT := true, FCODE := f.code, FCW := cw, inputs := rest
                     responses := s.responses ++ [⟨f.code, []⟩] }

/-- R222. While halted, NOP, SRST and CRD of a register that exists, each with an empty payload, execute as their
rules say: NOP and CRD change nothing but the answer, SRST ends the halted state. Every other transaction, its word
legal or not, is refused with `0x80` and changes nothing. -/
def Obligations.HaltedEngineRunsThreeCommandsOnly : Prop :=
  ∀ (s : State) cw inp rest, s.inputs = .transaction cw inp :: rest → s.FAULT = true →
    (decode cw = .ok .nop → inp = [] → step s = .next (s.respond 0x00 [])) ∧
    (decode cw = .ok .srst → inp = [] → ∃ t, step s = .next t ∧ t.HasResetValues ∧ t.inputs = rest ∧
      t.responses = s.responses ++ [⟨0x00, []⟩]) ∧
    (∀ idx, decode cw = .ok (.crd idx) → idx ≤ 6 → inp = [] →
      ∃ out, out.length = nOut s.cfg (.crd idx) ∧ step s = .next (s.respond 0x00 out)) ∧
    (¬ ((decode cw = .ok .nop ∨ decode cw = .ok .srst ∨ ∃ idx, decode cw = .ok (.crd idx) ∧ idx ≤ 6) ∧ inp = []) →
      step s = .next { s with inputs := rest, responses := s.responses ++ [⟨0x80, []⟩] })

/-- The fault recorded is the first since reset (R30, R221): while the engine is halted no step but SRST and hardware
reset changes FAULT, FCODE or FCW, and those two clear them (R223). -/
def Obligations.FirstFaultIsKept : Prop :=
  ∀ s t : State, step s = .next t → s.FAULT = true →
    (t.FAULT = true ∧ t.FCODE = s.FCODE ∧ t.FCW = s.FCW) ∨
      ((s.inputs.head? = some .hardwareReset ∨ decode s.cw = .ok .srst) ∧
        t.FAULT = false ∧ t.FCODE = 0 ∧ t.FCW = 0)

/-- R219. A payload of another length than `n_in` raises PayloadLength (code 8) whatever the state and the index,
and `n_in` is `b` for KEYLD, `u` for WLD, `2u` for BLKLD and 0 for every other command (R76). -/
def Obligations.WrongPayloadLengthFaults : Prop :=
  (∀ (i : Instr) (s : State), s.FAULT = false → s.payload.length ≠ nIn s.cfg i →
    exec i s = .next { s with FAULT := true, FCODE := 0x08, FCW := s.cw, inputs := s.inputs.tail
                              responses := s.responses ++ [⟨0x08, []⟩] }) ∧
    (∀ cfg : Config, nIn cfg .keyld = cfg.b ∧ (∀ rd, nIn cfg (.wld rd) = (cfg.w + 7) / 8) ∧
      nIn cfg .blkld = 2 * ((cfg.w + 7) / 8) ∧
      ∀ i : Instr, i ≠ .keyld → (∀ rd, i ≠ .wld rd) → i ≠ .blkld → nIn cfg i = 0)

/-- R213. LINIT and EXPAND issued while KL = 0 raise KeyNotLoaded (code 2), for a zero-length key too; FCW is then
`0x11000000` or `0x14000000`. -/
def Obligations.KeyNotLoadedFaults : Prop :=
  ∀ (s : State) (cw : CommandWord) rest, s.inputs = .transaction cw [] :: rest → s.FAULT = false → s.KL = false →
    (cw = 0x11000000 ∨ cw = 0x14000000) →
      step s = .next { s with FAULT := true, FCODE := 0x02, FCW := cw, inputs := rest
                              responses := s.responses ++ [⟨0x02, []⟩] }

/-- R214. MIX issued in any state other than LST = INIT and SST = INIT raises SequenceError (code 3); FCW is then
`0x13000000`. -/
def Obligations.MixOutOfSequenceFaults : Prop :=
  ∀ (s : State) rest, s.inputs = .transaction 0x13000000 [] :: rest → s.FAULT = false →
    ¬ (s.LST = .init ∧ s.SST = .init) →
      step s = .next { s with FAULT := true, FCODE := 0x03, FCW := 0x13000000, inputs := rest
                              responses := s.responses ++ [⟨0x03, []⟩] }

/-- R215. ENC and DEC raise TableNotReady (code 4) unless SST = MIXED; SRD and SMV if SST = EMPTY; LRD if
LST = EMPTY, whatever the index (R220). FCW is the command word. -/
def Obligations.UnreadyTableFaults : Prop :=
  ∀ (s : State) cw i rest, s.inputs = .transaction cw [] :: rest → decode cw = .ok i → s.FAULT = false →
    (((i = .enc ∨ i = .dec) ∧ s.SST ≠ .mixed) ∨ (((∃ idx, i = .srd idx) ∨ ∃ rd idx, i = .smv rd idx) ∧ s.SST = .empty) ∨
      ((∃ idx, i = .lrd idx) ∧ s.LST = .empty)) →
    step s = .next { s with FAULT := true, FCODE := 0x04, FCW := cw, inputs := rest
                            responses := s.responses ++ [⟨0x04, []⟩] }

/-- R216. SRD and SMV with `idx ≥ t`, LRD with `idx ≥ c`, CRD with `idx > 6` raise IndexRange (code 5), the state
precondition being met. FCW is the command word, and its low 16 bits are the index. -/
def Obligations.IndexOutOfRangeFaults : Prop :=
  ∀ (s : State) cw i idx rest, s.inputs = .transaction cw [] :: rest → decode cw = .ok i → s.FAULT = false →
    (((i = .srd idx ∨ ∃ rd, i = .smv rd idx) ∧ s.SST ≠ .empty ∧ 2 * (s.cfg.r + 1) ≤ idx) ∨
      (i = .lrd idx ∧ s.LST ≠ .empty ∧ max ((s.cfg.b * 8 + s.cfg.w - 1) / s.cfg.w) 1 ≤ idx) ∨
      (i = .crd idx ∧ 6 < idx)) →
    step s = .next { s with FAULT := true, FCODE := 0x05, FCW := cw, inputs := rest
                            responses := s.responses ++ [⟨0x05, []⟩] } ∧
      (cw.extractLsb' 0 16).toNat = idx

/-! ## System and observation commands -/

/-- R190. NOP changes nothing and answers `0x00`, halted or not, with an empty payload; with another payload it
raises PayloadLength when not halted and is refused when halted. -/
def Obligations.NopDoesNothing : Prop :=
  encode .nop = 0x00000000 ∧
    (∀ s : State, s.payload = [] → exec .nop s = .next (s.respond 0x00 [])) ∧
    (∀ s : State, s.payload ≠ [] → s.FAULT = false →
      exec .nop s = .next ((s.recordFault .payloadLength).respond 0x08 [])) ∧
    (∀ s : State, s.payload ≠ [] → s.FAULT = true → exec .nop s = .next (s.respond 0x80 []))

/-- R191. SRST zeroes A, B, STATUS and FCW, halted or not, with an empty payload, and leaves the configuration; KEY,
L and S it leaves unspecified, so nothing is said of their contents. The state after it is the state after hardware
reset, but for the answer. With another payload it raises PayloadLength when not halted and is refused when halted. That the
counter `resets` moves on, and that the two resets of one state leave the same contents of KEY, L and S, is the model's
choice (log entry 5), and so is what hardware reset does to the host's events and answers (log entry 21). -/
def Obligations.SrstResetsTheEngine : Prop :=
  encode .srst = 0x01000000 ∧
    (∀ s : State, s.payload = [] → ∃ KEY L S,
      exec .srst s = .next (({ s with A := 0, B := 0, KEY := KEY, L := L, S := S, KL := false, LST := .empty
                                      SST := .empty, FAULT := false, FCODE := 0, FCW := 0
                                      resets := s.resets + 1 } : State).respond 0x00 [])) ∧
    (∀ (s t : State) rest, step { s with inputs := .transaction 0x01000000 [] :: rest } = .next t →
      step { s with inputs := .hardwareReset :: rest } = .next { t with responses := s.responses }) ∧
    (∀ s : State, s.payload ≠ [] → s.FAULT = false →
      exec .srst s = .next ((s.recordFault .payloadLength).respond 0x08 [])) ∧
    (∀ s : State, s.payload ≠ [] → s.FAULT = true → exec .srst s = .next (s.respond 0x80 []))

/-- R29. STATUS as a number and field by field: KL, LST, SST, FAULT, zeros, FCODE, zeros. -/
def Obligations.StatusWordLayout : Prop :=
  ∀ s : State,
    s.statusWord.toNat =
      s.KL.toNat + 2 * s.LST.code + 8 * s.SST.code + 32 * s.FAULT.toNat + 256 * s.FCODE.toNat ∧
    s.statusWord.getLsbD 0 = s.KL ∧ (s.statusWord.extractLsb' 1 2).toNat = s.LST.code ∧
    (s.statusWord.extractLsb' 3 2).toNat = s.SST.code ∧ s.statusWord.getLsbD 5 = s.FAULT ∧
    s.statusWord.extractLsb' 6 2 = 0 ∧ s.statusWord.extractLsb' 8 8 = s.FCODE ∧
    s.statusWord.extractLsb' 16 16 = 0 ∧
    TableState.empty.code = 0 ∧ TableState.init.code = 1 ∧ TableState.mixed.code = 2

/-- R192. CRD returns the register named, 4 bytes or `u` bytes little-endian, halted or not, and changes nothing;
`idx > 6` raises IndexRange when not halted and is refused when halted, and so does another payload (PayloadLength
when not halted). -/
def Obligations.CrdReturnsTheRegister : Prop :=
  (∀ idx, idx < 2 ^ 16 → encode (.crd idx) = BitVec.ofNat 32 (0x02000000 + idx)) ∧
    (∀ s : State, s.payload = [] →
      exec (.crd 0) s = .next (s.respond 0x00 (toBytes (w := 32) s.statusWord)) ∧
      exec (.crd 1) s = .next (s.respond 0x00 (toBytes (w := 32) s.FCW)) ∧
      exec (.crd 2) s = .next (s.respond 0x00 (toBytes (w := 32) (BitVec.ofNat 32 s.cfg.w))) ∧
      exec (.crd 3) s = .next (s.respond 0x00 (toBytes (w := 32) (BitVec.ofNat 32 s.cfg.r))) ∧
      exec (.crd 4) s = .next (s.respond 0x00 (toBytes (w := 32) (BitVec.ofNat 32 s.cfg.b))) ∧
      exec (.crd 5) s = .next (s.respond 0x00 (toBytes s.cfg.P)) ∧
      exec (.crd 6) s = .next (s.respond 0x00 (toBytes s.cfg.Q))) ∧
    (∀ (s : State) idx, s.FAULT = false → s.payload = [] → 6 < idx →
      exec (.crd idx) s = .next ((s.recordFault .indexRange).respond 0x05 [])) ∧
    (∀ (s : State) idx, s.FAULT = false → s.payload ≠ [] →
      exec (.crd idx) s = .next ((s.recordFault .payloadLength).respond 0x08 [])) ∧
    (∀ (s : State) idx, s.FAULT = true → s.payload ≠ [] ∨ 6 < idx → exec (.crd idx) s = .next (s.respond 0x80 []))

/-- R193, R194, R195. SRD and LRD return the entry as bytes and change nothing, SMV puts the S entry into `x[rd]` and
changes nothing else; their words; TableNotReady before IndexRange; PayloadLength for a payload; refused when
halted. -/
def Obligations.TableEntriesAreReturned : Prop :=
  (∀ idx, idx < 2 ^ 16 → encode (.srd idx) = BitVec.ofNat 32 (0x50000000 + idx) ∧
      encode (.lrd idx) = BitVec.ofNat 32 (0x51000000 + idx) ∧
      ∀ rd, encode (.smv rd idx) = BitVec.ofNat 32 (0x52000000 + regBit rd * 2 ^ 23 + idx)) ∧
    (∀ (s : State) (idx : Nat), s.FAULT = false → s.payload = [] →
      (∀ h : idx < s.cfg.t, s.SST ≠ .empty →
        exec (.srd idx) s = .next (s.respond 0x00 (toBytes (s.S[idx]'h))) ∧
        ∀ rd, exec (.smv rd idx) s =
          .next (({ s with A := if rd = .A then s.S[idx]'h else s.A
                           B := if rd = .B then s.S[idx]'h else s.B } : State).respond 0x00 [])) ∧
      (∀ h : idx < s.cfg.c, s.LST ≠ .empty →
        exec (.lrd idx) s = .next (s.respond 0x00 (toBytes (s.L[idx]'h)))) ∧
      (∀ i : Instr, ((i = .srd idx ∨ ∃ rd, i = .smv rd idx) ∧ s.SST = .empty) ∨ (i = .lrd idx ∧ s.LST = .empty) →
        exec i s = .next ((s.recordFault .tableNotReady).respond 0x04 [])) ∧
      (∀ i : Instr, ((i = .srd idx ∨ ∃ rd, i = .smv rd idx) ∧ s.SST ≠ .empty ∧ s.cfg.t ≤ idx) ∨
          (i = .lrd idx ∧ s.LST ≠ .empty ∧ s.cfg.c ≤ idx) →
        exec i s = .next ((s.recordFault .indexRange).respond 0x05 []))) ∧
    (∀ (i : Instr) idx, (i = .srd idx ∨ i = .lrd idx ∨ ∃ rd, i = .smv rd idx) →
      (∀ s : State, s.FAULT = false → s.payload ≠ [] →
        exec i s = .next ((s.recordFault .payloadLength).respond 0x08 [])) ∧
      (∀ s : State, s.FAULT = true → exec i s = .next (s.respond 0x80 [])))

/-! ## Word Arithmetic -/

/-- R101, R102, R103. `add` is the sum mod `2^w`, commutative and associative with neutral element 0; `sub` is the
difference mod `2^w`, with the case split the rule gives; `xor` is bitwise. -/
def Obligations.AddSubXorOnWords : Prop :=
  ∀ (w : Nat) (l r m : Word w),
    (wordAdd l r).toNat = (l.toNat + r.toNat) % 2 ^ w ∧ wordAdd l r = wordAdd r l ∧
    wordAdd (wordAdd l r) m = wordAdd l (wordAdd r m) ∧ wordAdd l 0 = l ∧
    (r.toNat ≤ l.toNat → (wordSub l r).toNat = l.toNat - r.toNat) ∧
    (l.toNat < r.toNat → (wordSub l r).toNat = 2 ^ w + l.toNat - r.toNat) ∧ wordSub l 0 = l ∧ wordSub l l = 0 ∧
    (∀ k, k < w → (wordXor l r).getLsbD k = (l.getLsbD k != r.getLsbD k)) ∧ wordXor l r = wordXor r l ∧
    wordXor (wordXor l r) m = wordXor l (wordXor r m) ∧ wordXor l 0 = l ∧ wordXor l l = 0

/-- R104, R105. `rotl` moves bit `p` to bit `(p + k) mod w` and `rotr` bit `p` to bit `(p − k) mod w`, where
`k = amount mod w`; both are the formulas of the rules on unbounded numbers. -/
def Obligations.RotatesMoveBits : Prop :=
  ∀ (w : Nat) (l amount : Word w) (p : Nat), p < w →
    (rotl l amount).getLsbD ((p + amount.toNat % w) % w) = l.getLsbD p ∧
    (rotr l amount).getLsbD ((p + w - amount.toNat % w) % w) = l.getLsbD p ∧
    (rotl l amount).toNat =
      ((l.toNat <<< (amount.toNat % w)) ||| (l.toNat >>> (w - amount.toNat % w))) % 2 ^ w ∧
    (rotr l amount).toNat =
      ((l.toNat >>> (amount.toNat % w)) ||| (l.toNat <<< (w - amount.toNat % w))) % 2 ^ w

/-- R106, its seven laws, for every `w ≥ 1`. -/
def Obligations.LawsOfTheWordUnit : Prop :=
  ∀ (w : Nat), 0 < w → ∀ a b m : Word w,
    wordSub (wordAdd a b) b = a ∧ wordAdd (wordSub a b) b = a ∧ wordXor (wordXor a b) b = a ∧
    rotr (rotl a m) m = a ∧ rotl (rotr a m) m = a ∧
    rotl a m = rotl a (BitVec.ofNat w (m.toNat % w)) ∧ rotr a m = rotr a (BitVec.ofNat w (m.toNat % w)) ∧
    rotlBy a m.toNat = rotrBy a (w - m.toNat % w) ∧ rotl a 0 = a ∧ rotr a 0 = a ∧
    (w = 1 → rotl a m = a ∧ rotr a m = a)

/-- R107, R108, R109 with R112: the words of ADD, SUB and XOR; the value written to `x[rd]`, both sources read
before; nothing else changed; `0x00` and no output; PayloadLength for a payload; refused when halted. -/
def Obligations.AddSubXorCommands : Prop :=
  ∀ rd rs1 rs2 : Reg,
    (encode (.add rd rs1 rs2) = BitVec.ofNat 32 (0x30 * 2 ^ 24 + regBit rd * 2 ^ 23 + regBit rs1 * 2 ^ 22 + regBit rs2 * 2 ^ 21) ∧
      encode (.sub rd rs1 rs2) = BitVec.ofNat 32 (0x31 * 2 ^ 24 + regBit rd * 2 ^ 23 + regBit rs1 * 2 ^ 22 + regBit rs2 * 2 ^ 21) ∧
      encode (.xor rd rs1 rs2) = BitVec.ofNat 32 (0x32 * 2 ^ 24 + regBit rd * 2 ^ 23 + regBit rs1 * 2 ^ 22 + regBit rs2 * 2 ^ 21)) ∧
    (∀ s : State, s.FAULT = false → s.payload = [] →
      (∃ v : Word s.cfg.w, v.toNat = ((s.reg rs1).toNat + (s.reg rs2).toNat) % 2 ^ s.cfg.w ∧
        exec (.add rd rs1 rs2) s =
          .next (({ s with A := if rd = .A then v else s.A, B := if rd = .B then v else s.B } : State).respond 0x00 [])) ∧
      (∃ v : Word s.cfg.w, v.toNat = ((s.reg rs1).toNat + (2 ^ s.cfg.w - (s.reg rs2).toNat)) % 2 ^ s.cfg.w ∧
        exec (.sub rd rs1 rs2) s =
          .next (({ s with A := if rd = .A then v else s.A, B := if rd = .B then v else s.B } : State).respond 0x00 [])) ∧
      (∃ v : Word s.cfg.w, v.toNat = (s.reg rs1).toNat ^^^ (s.reg rs2).toNat ∧
        exec (.xor rd rs1 rs2) s =
          .next (({ s with A := if rd = .A then v else s.A, B := if rd = .B then v else s.B } : State).respond 0x00 []))) ∧
    (∀ i : Instr, (i = .add rd rs1 rs2 ∨ i = .sub rd rs1 rs2 ∨ i = .xor rd rs1 rs2) →
      (∀ s : State, s.FAULT = false → s.payload ≠ [] →
        exec i s = .next ((s.recordFault .payloadLength).respond 0x08 [])) ∧
      (∀ s : State, s.FAULT = true → exec i s = .next (s.respond 0x80 [])))

/-- R110, R111 with R112: the words of ROTL and ROTR; `x[rd]` takes `x[rs1]` rotated by the whole word `x[rs2]`
reduced `mod w`; nothing else changed; PayloadLength for a payload; refused when halted. -/
def Obligations.RotateCommands : Prop :=
  ∀ rd rs1 rs2 : Reg,
    (encode (.rotl rd rs1 rs2) = BitVec.ofNat 32 (0x33 * 2 ^ 24 + regBit rd * 2 ^ 23 + regBit rs1 * 2 ^ 22 + regBit rs2 * 2 ^ 21) ∧
      encode (.rotr rd rs1 rs2) = BitVec.ofNat 32 (0x34 * 2 ^ 24 + regBit rd * 2 ^ 23 + regBit rs1 * 2 ^ 22 + regBit rs2 * 2 ^ 21)) ∧
    (∀ s : State, s.FAULT = false → s.payload = [] →
      (∃ v : Word s.cfg.w, v.toNat = (((s.reg rs1).toNat <<< ((s.reg rs2).toNat % s.cfg.w)) |||
            ((s.reg rs1).toNat >>> (s.cfg.w - (s.reg rs2).toNat % s.cfg.w))) % 2 ^ s.cfg.w ∧
        exec (.rotl rd rs1 rs2) s =
          .next (({ s with A := if rd = .A then v else s.A, B := if rd = .B then v else s.B } : State).respond 0x00 [])) ∧
      (∃ v : Word s.cfg.w, v.toNat = (((s.reg rs1).toNat >>> ((s.reg rs2).toNat % s.cfg.w)) |||
            ((s.reg rs1).toNat <<< (s.cfg.w - (s.reg rs2).toNat % s.cfg.w))) % 2 ^ s.cfg.w ∧
        exec (.rotr rd rs1 rs2) s =
          .next (({ s with A := if rd = .A then v else s.A, B := if rd = .B then v else s.B } : State).respond 0x00 []))) ∧
    (∀ i : Instr, (i = .rotl rd rs1 rs2 ∨ i = .rotr rd rs1 rs2) →
      (∀ s : State, s.FAULT = false → s.payload ≠ [] →
        exec i s = .next ((s.recordFault .payloadLength).respond 0x08 [])) ∧
      (∀ s : State, s.FAULT = true → exec i s = .next (s.respond 0x80 [])))

/-! ## Word Codec -/

/-- R120, R121. `from_bytes` of `u` bytes is the little-endian number they write, reduced `mod 2^w`; byte `m` of
`to_bytes` is `(x div 2^(8m)) mod 256`, for `u` bytes. -/
def Obligations.CodecFunctions : Prop :=
  ∀ (w : Nat) (buf : List Byte) (x : Word w), buf.length = (w + 7) / 8 →
    (fromBytes w buf).toNat = ((List.range buf.length).map fun m => (buf.getD m 0).toNat * 2 ^ (8 * m)).sum % 2 ^ w ∧
    (toBytes x).length = (w + 7) / 8 ∧
    (∀ m, m < (w + 7) / 8 → ((toBytes x).getD m 0).toNat = x.toNat / 2 ^ (8 * m) % 256)

/-- R122. `from_bytes(to_bytes(x)) = x`; the other direction holds exactly when the unused top bits of the last byte
are zero, else the result is the string with those bits cleared; two strings that differ only in those bits decode to
the same word (R247). -/
def Obligations.CodecRoundTrip : Prop :=
  ∀ (w : Nat), 0 < w → (∀ x : Word w, fromBytes w (toBytes x) = x) ∧
    (∀ buf : List Byte, buf.length = (w + 7) / 8 →
      (toBytes (fromBytes w buf) = buf ↔
        (buf.getD ((w + 7) / 8 - 1) 0).toNat < 2 ^ (w - 8 * ((w + 7) / 8 - 1)))) ∧
    (∀ (front : List Byte) (last : Byte), front.length + 1 = (w + 7) / 8 →
      toBytes (fromBytes w (front ++ [last])) =
        front ++ [BitVec.ofNat 8 (last.toNat % 2 ^ (w - 8 * front.length))]) ∧
    (∀ (front : List Byte) (last last' : Byte), front.length + 1 = (w + 7) / 8 →
      last.toNat % 2 ^ (w - 8 * front.length) = last'.toNat % 2 ^ (w - 8 * front.length) →
        fromBytes w (front ++ [last]) = fromBytes w (front ++ [last']))

/-- R123, R124. WLD puts `from_bytes(inp)` into `x[rd]` and changes nothing else; WST returns `to_bytes(x[rs1])` and
changes nothing; their words, PayloadLength for another payload length, refused when halted. -/
def Obligations.WordLoadAndStoreCommands : Prop :=
  ∀ reg : Reg,
    (encode (.wld reg) = BitVec.ofNat 32 (0x40000000 + regBit reg * 2 ^ 23) ∧
      encode (.wst reg) = BitVec.ofNat 32 (0x41000000 + regBit reg * 2 ^ 22)) ∧
    (∀ s : State, s.FAULT = false → s.payload.length = s.cfg.u →
      exec (.wld reg) s =
        .next (({ s with A := if reg = .A then fromBytes s.cfg.w s.payload else s.A
                         B := if reg = .B then fromBytes s.cfg.w s.payload else s.B } : State).respond 0x00 [])) ∧
    (∀ s : State, s.FAULT = false → s.payload = [] →
      exec (.wst reg) s = .next (s.respond 0x00 (toBytes (s.reg reg)))) ∧
    (∀ s : State, s.FAULT = false → s.payload.length ≠ s.cfg.u →
      exec (.wld reg) s = .next ((s.recordFault .payloadLength).respond 0x08 [])) ∧
    (∀ s : State, s.FAULT = false → s.payload ≠ [] →
      exec (.wst reg) s = .next ((s.recordFault .payloadLength).respond 0x08 [])) ∧
    (∀ s : State, s.FAULT = true → exec (.wld reg) s = .next (s.respond 0x80 []) ∧
      exec (.wst reg) s = .next (s.respond 0x80 []))

/-- R125, R126. BLKLD loads A from bytes `0 .. u−1` and B from bytes `u .. 2u−1`; BLKST returns A's bytes, then B's;
their words, PayloadLength for another payload length, refused when halted. -/
def Obligations.BlockLoadAndStoreCommands : Prop :=
  (encode .blkld = 0x42000000 ∧ encode .blkst = 0x43000000) ∧
    (∀ (s : State) (bytesA bytesB : List Byte), s.FAULT = false → bytesA.length = s.cfg.u →
      bytesB.length = s.cfg.u → s.payload = bytesA ++ bytesB →
        exec .blkld s =
          .next (({ s with A := fromBytes s.cfg.w bytesA, B := fromBytes s.cfg.w bytesB } : State).respond 0x00 [])) ∧
    (∀ s : State, s.FAULT = false → s.payload = [] →
      exec .blkst s = .next (s.respond 0x00 (toBytes s.A ++ toBytes s.B))) ∧
    (∀ s : State, s.FAULT = false → s.payload.length ≠ 2 * s.cfg.u →
      exec .blkld s = .next ((s.recordFault .payloadLength).respond 0x08 [])) ∧
    (∀ s : State, s.FAULT = false → s.payload ≠ [] →
      exec .blkst s = .next ((s.recordFault .payloadLength).respond 0x08 [])) ∧
    (∀ s : State, s.FAULT = true → exec .blkld s = .next (s.respond 0x80 []) ∧
      exec .blkst s = .next (s.respond 0x80 []))

/-! ## Key Schedule -/

/-- R142. KEYLD sets `KEY[k]` to payload byte `k` for every `k < b`, and KL to 1, and changes nothing else, for
`b = 0` too; another payload length raises PayloadLength; refused when halted. -/
def Obligations.KeyldLoadsTheKey : Prop :=
  encode .keyld = 0x10000000 ∧
    (∀ s : State, s.FAULT = false → s.payload.length = s.cfg.b →
      ∃ KEY : Vector Byte s.cfg.b, (∀ (k : Nat) (h : k < s.cfg.b), KEY[k] = s.payload.getD k 0) ∧
        exec .keyld s = .next (({ s with KEY := KEY, KL := true } : State).respond 0x00 [])) ∧
    (∀ s : State, s.FAULT = false → s.payload.length ≠ s.cfg.b →
      exec .keyld s = .next ((s.recordFault .payloadLength).respond 0x08 [])) ∧
    (∀ s : State, s.FAULT = true → exec .keyld s = .next (s.respond 0x80 []))

/-- R143 and its consequences 1 to 5, bit by bit: bit `p` of `L[k]` is bit `p mod 8` of key byte `k·u + p div 8`, or
0 beyond the key; there are at most `c` chunks, the entries after the last chunk are 0, a zero-length key gives one
zero word, and for `w` a multiple of 8 the table has as many entries as chunks, at least 1. -/
def Obligations.LinitPacksTheKeyByChunks : Prop :=
  ∀ (cfg : Config) (key : Vector Byte cfg.b),
    (∀ (k p : Nat) (h : k < cfg.c), p < cfg.w →
      ((linit cfg key)[k]'h).getLsbD p = (key.toList.getD (k * cfg.u + p / 8) 0).getLsbD (p % 8)) ∧
    (cfg.b + cfg.u - 1) / cfg.u ≤ cfg.c ∧
    (∀ (k : Nat) (h : k < cfg.c), (cfg.b + cfg.u - 1) / cfg.u ≤ k → (linit cfg key)[k]'h = 0) ∧
    (cfg.b = 0 → cfg.c = 1 ∧ (linit cfg key).toList = [0]) ∧
    (cfg.w % 8 = 0 → cfg.u = cfg.w / 8 ∧ cfg.c = max ((cfg.b + cfg.u - 1) / cfg.u) 1)

/-- R145. S-table init is `S[0] = P`, `S[i] = S[i−1] + Q`, in closed form `S[i] = P + i·Q (mod 2^w)`. -/
def Obligations.SinitClosedForm : Prop :=
  ∀ (cfg : Config) (i : Nat) (h : i < cfg.t),
    ((sinit cfg)[i]'h).toNat = (cfg.P.toNat + i * cfg.Q.toNat) % 2 ^ cfg.w ∧
    (∀ h0 : 0 < i, (sinit cfg)[i]'h = (sinit cfg)[i - 1]'(by omega) + cfg.Q) ∧
    (sinit cfg)[0]'cfg.t_pos = cfg.P

/-- R147. The mixing pass is the listed loop of `3·max(t, c)` iterations, S and L updated alternately on the indices
`n mod t` and `n mod c`, the first rotation by 3 and the second by the word `MA + MB`. -/
def Obligations.MixFollowsTheListing : Prop :=
  ∀ (cfg : Config) (L : Vector (Word cfg.w) cfg.c) (S : Vector (Word cfg.w) cfg.t),
    ((mix cfg L S).1.toList, (mix cfg L S).2.toList) = listingMix cfg L.toList S.toList

/-- R150 (1). Iteration `n` writes entry `n mod t` of S, with its MA, and entry `n mod c` of L, with its MB, and no
other entry; the pass is `n_mix` iterations; so entry `k` of S is rewritten `⌈(n_mix − k)/t⌉` times and entry `k` of L `⌈(n_mix − k)/c⌉` times, at least 3 times each, and exactly 3 times in the
longer table. -/
def Obligations.MixTouchesEveryEntryThreeTimes : Prop :=
  ∀ (cfg : Config) (L : Vector (Word cfg.w) cfg.c) (S : Vector (Word cfg.w) cfg.t),
    (∀ n, (mixAfter cfg L S n).i.val = n % cfg.t ∧ (mixAfter cfg L S n).j.val = n % cfg.c ∧
      (mixAfter cfg L S (n + 1)).S =
        (mixAfter cfg L S n).S.set (n % cfg.t) (mixAfter cfg L S (n + 1)).MA (Nat.mod_lt n cfg.t_pos) ∧
      (mixAfter cfg L S (n + 1)).L =
        (mixAfter cfg L S n).L.set (n % cfg.c) (mixAfter cfg L S (n + 1)).MB (Nat.mod_lt n cfg.c_pos)) ∧
    mix cfg L S = ((mixAfter cfg L S cfg.nMix).L, (mixAfter cfg L S cfg.nMix).S) ∧
    (∀ len, (len = cfg.t ∨ len = cfg.c) → ∀ k, k < len →
      ((List.range cfg.nMix).filter fun n => n % len == k).length = (cfg.nMix - k + len - 1) / len ∧
      3 ≤ ((List.range cfg.nMix).filter fun n => n % len == k).length ∧
      (len = max cfg.t cfg.c → ((List.range cfg.nMix).filter fun n => n % len == k).length = 3))

/-- R144. LINIT with KL = 1 sets every entry of L to `linit(KEY)` and LST to INIT, in every table state, and changes
nothing else; KeyNotLoaded with KL = 0; PayloadLength for a payload; refused when halted. -/
def Obligations.LinitCommand : Prop :=
  encode .linit = 0x11000000 ∧
    (∀ s : State, s.FAULT = false → s.payload = [] → s.KL = true →
      exec .linit s = .next (({ s with L := linit s.cfg s.KEY, LST := .init } : State).respond 0x00 [])) ∧
    (∀ s : State, s.FAULT = false → s.payload = [] → s.KL = false →
      exec .linit s = .next ((s.recordFault .keyNotLoaded).respond 0x02 [])) ∧
    (∀ s : State, s.FAULT = false → s.payload ≠ [] →
      exec .linit s = .next ((s.recordFault .payloadLength).respond 0x08 [])) ∧
    (∀ s : State, s.FAULT = true → exec .linit s = .next (s.respond 0x80 []))

/-- R146. SINIT sets every entry of S to `sinit()` and SST to INIT, with or without a key, in every table state, and
changes nothing else; PayloadLength for a payload; refused when halted. -/
def Obligations.SinitCommand : Prop :=
  encode .sinit = 0x12000000 ∧
    (∀ s : State, s.FAULT = false → s.payload = [] →
      exec .sinit s = .next (({ s with S := sinit s.cfg, SST := .init } : State).respond 0x00 [])) ∧
    (∀ s : State, s.FAULT = false → s.payload ≠ [] →
      exec .sinit s = .next ((s.recordFault .payloadLength).respond 0x08 [])) ∧
    (∀ s : State, s.FAULT = true → exec .sinit s = .next (s.respond 0x80 []))

/-- R148. MIX with both tables INIT rewrites both by the mixing pass and makes both MIXED, and changes nothing else;
SequenceError in any other state; PayloadLength for a payload; refused when halted. -/
def Obligations.MixCommand : Prop :=
  encode .mix = 0x13000000 ∧
    (∀ s : State, s.FAULT = false → s.payload = [] → s.LST = .init → s.SST = .init →
      exec .mix s =
        .next (({ s with L := (mix s.cfg s.L s.S).1, S := (mix s.cfg s.L s.S).2, LST := .mixed, SST := .mixed } :
          State).respond 0x00 [])) ∧
    (∀ s : State, s.FAULT = false → s.payload = [] → ¬ (s.LST = .init ∧ s.SST = .init) →
      exec .mix s = .next ((s.recordFault .sequenceError).respond 0x03 [])) ∧
    (∀ s : State, s.FAULT = false → s.payload ≠ [] →
      exec .mix s = .next ((s.recordFault .payloadLength).respond 0x08 [])) ∧
    (∀ s : State, s.FAULT = true → exec .mix s = .next (s.respond 0x80 []))

/-- R149 as a command. EXPAND with KL = 1 sets L and S to `mix(linit(KEY), sinit())` and both states to MIXED, in
every table state, and changes nothing else; KeyNotLoaded with KL = 0; PayloadLength for a payload; refused when
halted. -/
def Obligations.ExpandCommand : Prop :=
  encode .expand = 0x14000000 ∧
    (∀ s : State, s.FAULT = false → s.payload = [] → s.KL = true →
      exec .expand s =
        .next (({ s with L := (mix s.cfg (linit s.cfg s.KEY) (sinit s.cfg)).1
                         S := (mix s.cfg (linit s.cfg s.KEY) (sinit s.cfg)).2, LST := .mixed, SST := .mixed } :
          State).respond 0x00 [])) ∧
    (∀ s : State, s.FAULT = false → s.payload = [] → s.KL = false →
      exec .expand s = .next ((s.recordFault .keyNotLoaded).respond 0x02 [])) ∧
    (∀ s : State, s.FAULT = false → s.payload ≠ [] →
      exec .expand s = .next ((s.recordFault .payloadLength).respond 0x08 [])) ∧
    (∀ s : State, s.FAULT = true → exec .expand s = .next (s.respond 0x80 []))

/-- R149, R81. From every state that is not halted and has a key, `LINIT ; SINIT ; MIX`, `SINIT ; LINIT ; MIX` and
`EXPAND` reach the same state but for the answers given, each answering `0x00` to every command. -/
def Obligations.ExpandEqualsTheThreePhases : Prop :=
  ∀ (s : State) (rest : List HostEvent), s.FAULT = false → s.KL = true →
    ∃ t : State,
      core.run 1 { s with inputs := issue (.expand, []) :: rest } =
        .next { t with inputs := rest, responses := s.responses ++ [⟨0x00, []⟩] } ∧
      core.run 3 { s with inputs := Pseudo.ksched.events ++ rest } =
        .next { t with inputs := rest, responses := s.responses ++ [⟨0x00, []⟩, ⟨0x00, []⟩, ⟨0x00, []⟩] } ∧
      core.run 3 { s with inputs := [issue (.sinit, []), issue (.linit, []), issue (.mix, [])] ++ rest } =
        .next { t with inputs := rest, responses := s.responses ++ [⟨0x00, []⟩, ⟨0x00, []⟩, ⟨0x00, []⟩] }

/-! ## Round Cipher -/

/-- R171. `encrypt` is the listed loop over rounds `1 .. r`. -/
def Obligations.EncryptFollowsTheListing : Prop :=
  ∀ (cfg : Config) (S : Vector (Word cfg.w) cfg.t) (A B : Word cfg.w),
    encrypt S A B = listingEncrypt cfg.r S.toList A B

/-- R172. `decrypt` is the listed loop over rounds `r` downto `1`. -/
def Obligations.DecryptFollowsTheListing : Prop :=
  ∀ (cfg : Config) (S : Vector (Word cfg.w) cfg.t) (A B : Word cfg.w),
    decrypt S A B = listingDecrypt cfg.r S.toList A B

/-- R175. With `r = 0` encryption adds `S[0]`, `S[1]` and decryption subtracts them; the key schedule still runs in
full, `t = 2` and `n_mix = 3·max(2, c)`. -/
def Obligations.ZeroRoundsAddTheTwoWords : Prop :=
  ∀ (cfg : Config) (S : Vector (Word cfg.w) cfg.t) (A B : Word cfg.w), cfg.r = 0 →
    encrypt S A B = (A + S[0]'cfg.t_pos, B + S[1]'cfg.one_lt_t) ∧
    decrypt S A B = (A - S[0]'cfg.t_pos, B - S[1]'cfg.one_lt_t) ∧ cfg.t = 2 ∧ cfg.nMix = 3 * max 2 cfg.c

/-- R176. For every instance, every S-table and every block, `decrypt` undoes `encrypt` and `encrypt` undoes
`decrypt`. -/
def Obligations.CipherRoundTrip : Prop :=
  ∀ (cfg : Config) (S : Vector (Word cfg.w) cfg.t) (A B : Word cfg.w),
    decrypt S (encrypt S A B).1 (encrypt S A B).2 = (A, B) ∧ encrypt S (decrypt S A B).1 (decrypt S A B).2 = (A, B)

/-- R173, R174. ENC and DEC with SST = MIXED replace A, B by `encrypt(S, A, B)` and `decrypt(S, A, B)` and change
nothing else; TableNotReady otherwise; PayloadLength for a payload; refused when halted. -/
def Obligations.EncAndDecCommands : Prop :=
  (encode .enc = 0x20000000 ∧ encode .dec = 0x21000000) ∧
    (∀ s : State, s.FAULT = false → s.payload = [] → s.SST = .mixed →
      exec .enc s = .next (({ s with A := (encrypt s.S s.A s.B).1, B := (encrypt s.S s.A s.B).2 } : State).respond 0x00 []) ∧
      exec .dec s = .next (({ s with A := (decrypt s.S s.A s.B).1, B := (decrypt s.S s.A s.B).2 } : State).respond 0x00 [])) ∧
    (∀ i : Instr, (i = .enc ∨ i = .dec) →
      (∀ s : State, s.FAULT = false → s.payload = [] → s.SST ≠ .mixed →
        exec i s = .next ((s.recordFault .tableNotReady).respond 0x04 [])) ∧
      (∀ s : State, s.FAULT = false → s.payload ≠ [] →
        exec i s = .next ((s.recordFault .payloadLength).respond 0x08 [])) ∧
      (∀ s : State, s.FAULT = true → exec i s = .next (s.respond 0x80 [])))

/-- The machine form of the round trip (R174, R176): from every state that is not halted and has a completed
schedule, ENC then DEC, and DEC then ENC, bring back the whole state but for the two answers. -/
def Obligations.DecUndoesEncOnTheMachine : Prop :=
  ∀ (s : State) (rest : List HostEvent), s.FAULT = false → s.SST = .mixed →
    core.run 2 { s with inputs := issue (.enc, []) :: issue (.dec, []) :: rest } =
      .next { s with inputs := rest, responses := s.responses ++ [⟨0x00, []⟩, ⟨0x00, []⟩] } ∧
    core.run 2 { s with inputs := issue (.dec, []) :: issue (.enc, []) :: rest } =
      .next { s with inputs := rest, responses := s.responses ++ [⟨0x00, []⟩, ⟨0x00, []⟩] }

/-- R81, CLR and MOV as their expansions: CLR zeroes `x[rd]`, MOV copies `x[rs]` into `x[rd]`, and nothing else
changes; `MOV rd, rd` is no command. -/
def Obligations.ClrAndMovPseudoInstructions : Prop :=
  ∀ (s : State) (rest : List HostEvent), s.FAULT = false →
    (∀ rd, core.run 1 { s with inputs := (Pseudo.clr rd).events ++ rest } =
      .next { s.setReg rd 0 with inputs := rest, responses := s.responses ++ [⟨0x00, []⟩] }) ∧
    (∀ rd rs, rd ≠ rs → core.run 2 { s with inputs := (Pseudo.mov rd rs).events ++ rest } =
      .next { s.setReg rd (s.reg rs) with inputs := rest, responses := s.responses ++ [⟨0x00, []⟩, ⟨0x00, []⟩] }) ∧
    (∀ rd, (Pseudo.mov rd rd).events = [])

/-- R81, RDSTAT, REKEY, ENCBLK and DECBLK as their expansions, from every state that is not halted: RDSTAT returns
STATUS; REKEY leaves the key loaded and both tables of its schedule; with a completed schedule ENCBLK returns the bytes
of the encrypted block and DECBLK those of the decrypted one, and both leave the result in A and B. Nothing else
changes. -/
def Obligations.KeyAndBlockPseudoInstructions : Prop :=
  ∀ (s : State) (rest : List HostEvent), s.FAULT = false →
    (core.run 1 { s with inputs := Pseudo.rdstat.events ++ rest } =
      .next { s with inputs := rest, responses := s.responses ++ [⟨0x00, toBytes (w := 32) s.statusWord⟩] }) ∧
    (∀ key : List Byte, key.length = s.cfg.b → ∃ KEY : Vector Byte s.cfg.b, KEY.toList = key ∧
      core.run 2 { s with inputs := (Pseudo.rekey key).events ++ rest } =
        .next { s with KEY := KEY, KL := true, L := (schedule s.cfg KEY).1, S := (schedule s.cfg KEY).2, LST := .mixed
                       SST := .mixed, inputs := rest, responses := s.responses ++ [⟨0x00, []⟩, ⟨0x00, []⟩] }) ∧
    (∀ bytesA bytesB : List Byte, bytesA.length = s.cfg.u → bytesB.length = s.cfg.u → s.SST = .mixed →
      (∃ x, x = encrypt s.S (fromBytes s.cfg.w bytesA) (fromBytes s.cfg.w bytesB) ∧
        core.run 3 { s with inputs := (Pseudo.encblk (bytesA ++ bytesB)).events ++ rest } =
          .next { s with A := x.1, B := x.2, inputs := rest
                         responses := s.responses ++ [⟨0x00, []⟩, ⟨0x00, []⟩, ⟨0x00, toBytes x.1 ++ toBytes x.2⟩] }) ∧
      ∃ x, x = decrypt s.S (fromBytes s.cfg.w bytesA) (fromBytes s.cfg.w bytesB) ∧
        core.run 3 { s with inputs := (Pseudo.decblk (bytesA ++ bytesB)).events ++ rest } =
          .next { s with A := x.1, B := x.2, inputs := rest
                         responses := s.responses ++ [⟨0x00, []⟩, ⟨0x00, []⟩, ⟨0x00, toBytes x.1 ++ toBytes x.2⟩] })

/-! ## Rules about the whole machine -/

/-- The ownership table of R25 with R21 to R24 and R31, as a frame of every command on every path, faults and
refusals included: a register, KEY, KL, L, LST, S or SST changes only by a command the table lists for it (SRST for
all of them); no command changes the configuration; the fault record changes by a fault or by SRST only. That no command
but SRST moves the counter `resets` is about the model's own field (log entry 5). -/
def Obligations.OnlyTheListedCommandsWriteEachStore : Prop :=
  ∀ (i : Instr) (s t : State), exec i s = .next t →
    t.cfg = s.cfg ∧ (∀ r, writesReg i r = false → t.regNat r = s.regNat r) ∧
    (¬ WritesKey i → t.keyBytes = s.keyBytes ∧ t.KL = s.KL) ∧ (¬ WritesL i → t.lWords = s.lWords ∧ t.LST = s.LST) ∧
    (¬ WritesS i → t.sWords = s.sWords ∧ t.SST = s.SST) ∧
    (i ≠ .srst → t.resets = s.resets ∧
      ((t.FAULT = s.FAULT ∧ t.FCODE = s.FCODE ∧ t.FCW = s.FCW) ∨ (s.FAULT = false ∧ t.FAULT = true)))

/-- R33. The transitions of the table states, complete. A command that changes one was not halted and did not fault,
or is SRST, and is one of the five listed; LINIT, SINIT, MIX and EXPAND that execute make the transition listed for
them from every state; SRST that executes and hardware reset make both EMPTY; a command that faults or is refused, and
a word that is no command, changes neither. -/
def Obligations.TableStateTransitions : Prop :=
  (∀ (i : Instr) (s t : State), exec i s = .next t → (t.LST, t.SST) ≠ (s.LST, s.SST) →
    ((s.FAULT = false ∧ t.FAULT = false) ∨ i = .srst) ∧
    ((i = .srst ∧ t.LST = .empty ∧ t.SST = .empty) ∨ (i = .linit ∧ t.LST = .init ∧ t.SST = s.SST) ∨
      (i = .sinit ∧ t.LST = s.LST ∧ t.SST = .init) ∨
      (i = .mix ∧ s.LST = .init ∧ s.SST = .init ∧ t.LST = .mixed ∧ t.SST = .mixed) ∨
      (i = .expand ∧ t.LST = .mixed ∧ t.SST = .mixed))) ∧
    (∀ (i : Instr) (s t : State), exec i s = .next t → s.FAULT = false → t.FAULT = false →
      (i = .linit → t.LST = .init ∧ t.SST = s.SST) ∧ (i = .sinit → t.LST = s.LST ∧ t.SST = .init) ∧
      (i = .mix → s.LST = .init ∧ s.SST = .init ∧ t.LST = .mixed ∧ t.SST = .mixed) ∧
      (i = .expand → t.LST = .mixed ∧ t.SST = .mixed)) ∧
    (∀ s t : State, exec .srst s = .next t → t.FAULT = false → t.LST = .empty ∧ t.SST = .empty) ∧
    (∀ (i : Instr) (s t : State), exec i s = .next t → t.FAULT = true → t.LST = s.LST ∧ t.SST = s.SST) ∧
    (∀ (s t : State) cw inp rest, s.inputs = .transaction cw inp :: rest → (¬ ∃ i, decode cw = .ok i) →
      step s = .next t → t.LST = s.LST ∧ t.SST = s.SST) ∧
    (∀ (s t : State) rest, s.inputs = .hardwareReset :: rest → step s = .next t → t.LST = .empty ∧ t.SST = .empty)

/-- R37. Once SST = MIXED, a step changes an entry of S only if it runs SINIT or EXPAND, or resets the engine. -/
def Obligations.CompletedScheduleIsImmutable : Prop :=
  ∀ s t : State, step s = .next t → s.SST = .mixed →
    (t.SST = .mixed ∧ t.sWords = s.sWords) ∨ decode s.cw = .ok .sinit ∨ decode s.cw = .ok .expand ∨
      decode s.cw = .ok .srst ∨ s.inputs.head? = some .hardwareReset

/-- The invariant holds in the reset state of every instance, and in `State.reset`. -/
def Obligations.ResetStateMeetsTheInvariant : Prop :=
  State.reset.Inv ∧ ∀ cfg, (State.resetOf cfg).Inv

/-- Every step keeps the invariant, from every state that meets it (R33, R38, R217, R218): FCODE is 0 exactly when
FAULT is 0 and is never 6, 7 or above 8; FCW is 0 while FAULT is 0; a written L means a key was loaded and a MIXED S
means L was written; an INIT table holds the result of its init phase, and a MIXED table that of a key schedule. -/
def Obligations.StepKeepsTheInvariant : Prop :=
  ∀ s t : State, s.Inv → step s = .next t → t.Inv

/-- No execution observes unspecified storage (R36): two states that differ only in a key buffer with KL = 0 and in
tables in state EMPTY give, after any number of steps, the same answers, and still differ in nothing else. So no
claim can rest on the contents the model gives them (log entries 4 and 5). -/
def Obligations.UnwrittenStorageIsNeverObserved : Prop :=
  ∀ (k : Nat) (s s' : State), s.SameButUnwritten s' →
    ∃ t t' : State, core.run k s = .next t ∧ core.run k s' = .next t' ∧ t.SameButUnwritten t' ∧
      t.responses = t'.responses
end

