-- ==== Sys2Proof/Laws/Encoding.lean ====
section
/-! SUPPORT. Lemmas about the command word: its fields make it up, `assemble` puts each field where the field
is read from, and a format's mask keeps the opcode and the fields the format does not use. -/

namespace Sys2Proof.Laws

/-- `and` works on the parts of two numbers cut at the same bit. -/
theorem land_mul_add {k a b c d : Nat} (hb : b < 2 ^ k) (hd : d < 2 ^ k) :
    (2 ^ k * a + b) &&& (2 ^ k * c + d) = 2 ^ k * (a &&& c) + (b &&& d) := by
  have hbd : b &&& d < 2 ^ k := Nat.and_lt_two_pow b hd
  apply Nat.eq_of_testBit_eq
  intro i
  rw [Nat.testBit_and, Nat.testBit_two_pow_mul_add _ hb, Nat.testBit_two_pow_mul_add _ hd,
    Nat.testBit_two_pow_mul_add _ hbd]
  split <;> simp [Nat.testBit_and]

/-- The fields of a command word make it up (R71). -/
theorem toNat_eq_fields (cw : CommandWord) :
    cw.toNat = 2 ^ 24 * opField cw + (2 ^ 23 * rdField cw + (2 ^ 22 * rs1Field cw +
      (2 ^ 21 * rs2Field cw + (2 ^ 16 * zField cw + idxField cw)))) := by
  have h := cw.isLt
  simp only [opField, rdField, rs1Field, rs2Field, zField, idxField, bitField]
  omega

theorem opField_lt (cw : CommandWord) : opField cw < 2 ^ 8 := Nat.mod_lt _ (by decide)
theorem rdField_lt (cw : CommandWord) : rdField cw < 2 := Nat.mod_lt _ (by decide)
theorem rs1Field_lt (cw : CommandWord) : rs1Field cw < 2 := Nat.mod_lt _ (by decide)
theorem rs2Field_lt (cw : CommandWord) : rs2Field cw < 2 := Nat.mod_lt _ (by decide)
theorem zField_lt (cw : CommandWord) : zField cw < 2 ^ 5 := Nat.mod_lt _ (by decide)
theorem idxField_lt (cw : CommandWord) : idxField cw < 2 ^ 16 := Nat.mod_lt _ (by decide)

theorem regBit_lt (r : Reg) : regBit r < 2 := by cases r <;> decide

@[simp] theorem selectReg_regBit (r : Reg) : selectReg (regBit r) = r := by cases r <;> rfl

theorem regBit_selectReg {n : Nat} (h : n < 2) : regBit (selectReg n) = n := by
  interval_cases n <;> rfl

/-- Each field of an assembled word reads as what was put there (R71). -/
theorem fields_assemble {op rd rs1 rs2 idx : Nat} (hop : op < 2 ^ 8) (hrd : rd < 2) (hrs1 : rs1 < 2)
    (hrs2 : rs2 < 2) (hidx : idx < 2 ^ 16) :
    opField (assemble op rd rs1 rs2 idx) = op ∧ rdField (assemble op rd rs1 rs2 idx) = rd ∧
      rs1Field (assemble op rd rs1 rs2 idx) = rs1 ∧ rs2Field (assemble op rd rs1 rs2 idx) = rs2 ∧
      zField (assemble op rd rs1 rs2 idx) = 0 ∧ idxField (assemble op rd rs1 rs2 idx) = idx := by
  simp only [opField, rdField, rs1Field, rs2Field, zField, idxField, bitField, assemble, BitVec.toNat_ofNat]
  omega

/-- A word with `z = 0` is assembled from its own fields (R71). -/
theorem assemble_fields {cw : CommandWord} (hz : zField cw = 0) :
    assemble (opField cw) (rdField cw) (rs1Field cw) (rs2Field cw) (idxField cw) = cw := by
  apply BitVec.eq_of_toNat_eq
  have h := toNat_eq_fields cw
  have hlt := cw.isLt
  rw [hz] at h
  simp only [assemble, BitVec.toNat_ofNat]
  rw [Nat.mod_eq_of_lt] <;> omega

/-- The value a field keeps under a mask that fixes it or frees it. -/
theorem land_ones_or_zero {k v : Nat} (h : v < 2 ^ k) (free : Bool) :
    v &&& (if free then 0 else 2 ^ k - 1) = if free then 0 else v := by
  cases free
  · simpa using Nat.and_two_pow_sub_one_of_lt_two_pow h
  · simp

/-- A format's mask as its fields: it fixes `op`, `z` and the fields the format does not use (R72). -/
theorem formatMask_toNat (f : Format) :
    (formatMask f).toNat = 2 ^ 24 * (2 ^ 8 - 1) + (2 ^ 23 * (if usesRd f then 0 else 2 ^ 1 - 1) +
      (2 ^ 22 * (if usesRs1 f then 0 else 2 ^ 1 - 1) + (2 ^ 21 * (if usesRs2 f then 0 else 2 ^ 1 - 1) +
        (2 ^ 16 * (2 ^ 5 - 1) + (if usesIdx f then 0 else 2 ^ 16 - 1))))) := by
  cases f <;> decide

/-- A command word under a format's mask: the opcode, `z`, and the fields the format does not use. -/
theorem and_formatMask_toNat (cw : CommandWord) (f : Format) :
    (cw &&& formatMask f).toNat = 2 ^ 24 * opField cw + (2 ^ 23 * (if usesRd f then 0 else rdField cw) +
      (2 ^ 22 * (if usesRs1 f then 0 else rs1Field cw) + (2 ^ 21 * (if usesRs2 f then 0 else rs2Field cw) +
        (2 ^ 16 * zField cw + (if usesIdx f then 0 else idxField cw))))) := by
  have hop := opField_lt cw
  have hrd := rdField_lt cw
  have hrs1 := rs1Field_lt cw
  have hrs2 := rs2Field_lt cw
  have hz := zField_lt cw
  have hidx := idxField_lt cw
  have bit (free : Bool) : (if free then 0 else 2 ^ 1 - 1 : Nat) < 2 := by cases free <;> decide
  have low (free : Bool) : (if free then 0 else 2 ^ 16 - 1 : Nat) < 2 ^ 16 := by cases free <;> decide
  have b1 := bit (usesRd f)
  have b2 := bit (usesRs1 f)
  have b3 := bit (usesRs2 f)
  have b4 := low (usesIdx f)
  rw [BitVec.toNat_and, formatMask_toNat]
  conv => lhs; arg 1; rw [toNat_eq_fields cw]
  rw [land_mul_add (by omega) (by omega), land_mul_add (by omega) (by omega), land_mul_add (by omega) (by omega),
    land_mul_add (by omega) (by omega), land_mul_add hidx b4,
    land_ones_or_zero (k := 1) hrd, land_ones_or_zero (k := 1) hrs1, land_ones_or_zero (k := 1) hrs2,
    land_ones_or_zero hidx, Nat.and_two_pow_sub_one_of_lt_two_pow hop, Nat.and_two_pow_sub_one_of_lt_two_pow hz]

/-- A word assembled with the unused fields of its format at 0 shows only its opcode under the format's mask. -/
theorem assemble_and_mask {op rd rs1 rs2 idx : Nat} (f : Format) (hop : op < 2 ^ 8) (hrd : rd < 2)
    (hrs1 : rs1 < 2) (hrs2 : rs2 < 2) (hidx : idx < 2 ^ 16) (urd : usesRd f = false → rd = 0)
    (urs1 : usesRs1 f = false → rs1 = 0) (urs2 : usesRs2 f = false → rs2 = 0)
    (uidx : usesIdx f = false → idx = 0) :
    assemble op rd rs1 rs2 idx &&& formatMask f = BitVec.ofNat 32 (op * 2 ^ 24) := by
  apply BitVec.eq_of_toNat_eq
  obtain ⟨e1, e2, e3, e4, e5, e6⟩ := fields_assemble hop hrd hrs1 hrs2 hidx
  rw [and_formatMask_toNat, e1, e2, e3, e4, e5, e6, BitVec.toNat_ofNat, Nat.mod_eq_of_lt (by omega)]
  cases h1 : usesRd f <;> cases h2 : usesRs1 f <;> cases h3 : usesRs2 f <;> cases h4 : usesIdx f <;>
    simp_all <;> omega

end Sys2Proof.Laws
end

