-- ==== Sys2Proof/Laws/State.lean ====
section
/-! SUPPORT. What each update of the state does to each field, so that no later proof unfolds an update: one
lemma per field for `respond`, `recordFault`, `resetEngine` and `setReg`, true by `rfl`. -/

namespace Sys2Proof.Machine

variable (s : State)

/-! ## `respond`: the queue and the answers, nothing else -/

@[simp] theorem State.respond_cfg (rc : BitVec 8) (out : List Byte) : (s.respond rc out).cfg = s.cfg := rfl
@[simp] theorem State.respond_A (rc : BitVec 8) (out : List Byte) : (s.respond rc out).A = s.A := rfl
@[simp] theorem State.respond_B (rc : BitVec 8) (out : List Byte) : (s.respond rc out).B = s.B := rfl
@[simp] theorem State.respond_KEY (rc : BitVec 8) (out : List Byte) : (s.respond rc out).KEY = s.KEY := rfl
@[simp] theorem State.respond_L (rc : BitVec 8) (out : List Byte) : (s.respond rc out).L = s.L := rfl
@[simp] theorem State.respond_S (rc : BitVec 8) (out : List Byte) : (s.respond rc out).S = s.S := rfl
@[simp] theorem State.respond_KL (rc : BitVec 8) (out : List Byte) : (s.respond rc out).KL = s.KL := rfl
@[simp] theorem State.respond_LST (rc : BitVec 8) (out : List Byte) : (s.respond rc out).LST = s.LST := rfl
@[simp] theorem State.respond_SST (rc : BitVec 8) (out : List Byte) : (s.respond rc out).SST = s.SST := rfl
@[simp] theorem State.respond_FAULT (rc : BitVec 8) (out : List Byte) : (s.respond rc out).FAULT = s.FAULT := rfl
@[simp] theorem State.respond_FCODE (rc : BitVec 8) (out : List Byte) : (s.respond rc out).FCODE = s.FCODE := rfl
@[simp] theorem State.respond_FCW (rc : BitVec 8) (out : List Byte) : (s.respond rc out).FCW = s.FCW := rfl
@[simp] theorem State.respond_inputs (rc : BitVec 8) (out : List Byte) : (s.respond rc out).inputs = s.inputs.tail := rfl
@[simp] theorem State.respond_responses (rc : BitVec 8) (out : List Byte) : (s.respond rc out).responses = s.responses ++ [⟨rc, out⟩] := rfl
@[simp] theorem State.respond_resets (rc : BitVec 8) (out : List Byte) : (s.respond rc out).resets = s.resets := rfl

/-! ## `recordFault`: FAULT, FCODE and FCW, nothing else (R221) -/

@[simp] theorem State.recordFault_cfg (f : FaultCode) : (s.recordFault f).cfg = s.cfg := rfl
@[simp] theorem State.recordFault_A (f : FaultCode) : (s.recordFault f).A = s.A := rfl
@[simp] theorem State.recordFault_B (f : FaultCode) : (s.recordFault f).B = s.B := rfl
@[simp] theorem State.recordFault_KEY (f : FaultCode) : (s.recordFault f).KEY = s.KEY := rfl
@[simp] theorem State.recordFault_L (f : FaultCode) : (s.recordFault f).L = s.L := rfl
@[simp] theorem State.recordFault_S (f : FaultCode) : (s.recordFault f).S = s.S := rfl
@[simp] theorem State.recordFault_KL (f : FaultCode) : (s.recordFault f).KL = s.KL := rfl
@[simp] theorem State.recordFault_LST (f : FaultCode) : (s.recordFault f).LST = s.LST := rfl
@[simp] theorem State.recordFault_SST (f : FaultCode) : (s.recordFault f).SST = s.SST := rfl
@[simp] theorem State.recordFault_FAULT (f : FaultCode) : (s.recordFault f).FAULT = true := rfl
@[simp] theorem State.recordFault_FCODE (f : FaultCode) : (s.recordFault f).FCODE = f.code := rfl
@[simp] theorem State.recordFault_FCW (f : FaultCode) : (s.recordFault f).FCW = s.cw := rfl
@[simp] theorem State.recordFault_inputs (f : FaultCode) : (s.recordFault f).inputs = s.inputs := rfl
@[simp] theorem State.recordFault_responses (f : FaultCode) : (s.recordFault f).responses = s.responses := rfl
@[simp] theorem State.recordFault_resets (f : FaultCode) : (s.recordFault f).resets = s.resets := rfl

/-! ## `resetEngine`: the values of R36 -/

@[simp] theorem State.resetEngine_cfg : (s.resetEngine).cfg = s.cfg := rfl
@[simp] theorem State.resetEngine_A : (s.resetEngine).A = 0 := rfl
@[simp] theorem State.resetEngine_B : (s.resetEngine).B = 0 := rfl
@[simp] theorem State.resetEngine_KEY : (s.resetEngine).KEY = Config.freeKey s.cfg.b s.resets s.KEY := rfl
@[simp] theorem State.resetEngine_L : (s.resetEngine).L = Config.freeL s.cfg.w s.cfg.c s.resets s.L := rfl
@[simp] theorem State.resetEngine_S : (s.resetEngine).S = Config.freeS s.cfg.w s.cfg.t s.resets s.S := rfl
@[simp] theorem State.resetEngine_KL : (s.resetEngine).KL = false := rfl
@[simp] theorem State.resetEngine_LST : (s.resetEngine).LST = .empty := rfl
@[simp] theorem State.resetEngine_SST : (s.resetEngine).SST = .empty := rfl
@[simp] theorem State.resetEngine_FAULT : (s.resetEngine).FAULT = false := rfl
@[simp] theorem State.resetEngine_FCODE : (s.resetEngine).FCODE = 0 := rfl
@[simp] theorem State.resetEngine_FCW : (s.resetEngine).FCW = 0 := rfl
@[simp] theorem State.resetEngine_inputs : (s.resetEngine).inputs = s.inputs := rfl
@[simp] theorem State.resetEngine_responses : (s.resetEngine).responses = s.responses := rfl
@[simp] theorem State.resetEngine_resets : (s.resetEngine).resets = s.resets + 1 := rfl

/-! ## `setReg`: the selected register, nothing else (R21) -/

@[simp] theorem State.setReg_KL (r : Reg) (v : Word s.cfg.w) : (s.setReg r v).KL = s.KL := by
  cases r <;> rfl
@[simp] theorem State.setReg_LST (r : Reg) (v : Word s.cfg.w) : (s.setReg r v).LST = s.LST := by
  cases r <;> rfl
@[simp] theorem State.setReg_SST (r : Reg) (v : Word s.cfg.w) : (s.setReg r v).SST = s.SST := by
  cases r <;> rfl
@[simp] theorem State.setReg_FAULT (r : Reg) (v : Word s.cfg.w) : (s.setReg r v).FAULT = s.FAULT := by
  cases r <;> rfl
@[simp] theorem State.setReg_FCODE (r : Reg) (v : Word s.cfg.w) : (s.setReg r v).FCODE = s.FCODE := by
  cases r <;> rfl
@[simp] theorem State.setReg_FCW (r : Reg) (v : Word s.cfg.w) : (s.setReg r v).FCW = s.FCW := by
  cases r <;> rfl
@[simp] theorem State.setReg_inputs (r : Reg) (v : Word s.cfg.w) : (s.setReg r v).inputs = s.inputs := by
  cases r <;> rfl
@[simp] theorem State.setReg_responses (r : Reg) (v : Word s.cfg.w) : (s.setReg r v).responses = s.responses := by
  cases r <;> rfl
@[simp] theorem State.setReg_resets (r : Reg) (v : Word s.cfg.w) : (s.setReg r v).resets = s.resets := by
  cases r <;> rfl
@[simp] theorem State.setReg_cfg (r : Reg) (v : Word s.cfg.w) : (s.setReg r v).cfg = s.cfg := by
  cases r <;> rfl

/-- `setReg` as one record update, whichever register is selected. -/
theorem State.setReg_eq (r : Reg) (v : Word s.cfg.w) :
    s.setReg r v = { s with A := if r = .A then v else s.A, B := if r = .B then v else s.B } := by
  cases r <;> rfl

/-- Reading the register written gives the value; reading the other gives what it held (R21). -/
theorem State.reg_setReg_toNat (r r' : Reg) (v : Word s.cfg.w) :
    ((s.setReg r v).reg r').toNat = if r = r' then v.toNat else (s.reg r').toNat := by
  cases r <;> cases r' <;> rfl

@[simp] theorem State.cw_of_transaction {s : State} {cw : CommandWord} {inp : List Byte} {rest : List HostEvent}
    (h : s.inputs = .transaction cw inp :: rest) : s.cw = cw := by
  simp [State.cw, h]

@[simp] theorem State.payload_of_transaction {s : State} {cw : CommandWord} {inp : List Byte}
    {rest : List HostEvent} (h : s.inputs = .transaction cw inp :: rest) : s.payload = inp := by
  simp [State.payload, h]

end Sys2Proof.Machine
end

