-- ==== Sys2Proof/Laws/Ops.lean ====
section
/-! SUPPORT. What the shared operations do, said once: the four ways a command ends (R83), the same for the
whole of `exec`, and `step` on each kind of host event. Proofs cite these and do not unfold `command`. -/

namespace Sys2Proof.Machine

section CommandFrame

variable {whenHalted : Bool} {len : Nat} {body : Except FaultCode (State × List Byte)} {s : State}

/-- Step 1 of R83: a halted engine refuses all but the commands it still runs. -/
theorem command_refused (hf : s.FAULT = true) (hx : ¬ (whenHalted = true ∧ s.payload = [])) :
    command whenHalted len body s = .next (s.respond rcRefused []) := by
  simp only [command, refuseHalted]
  rw [if_pos ⟨hf, hx⟩]

/-- Step 3 of R83: a payload of another length. -/
theorem command_badLength (hf : s.FAULT = false) (hl : s.payload.length ≠ len) :
    command whenHalted len body s =
      .next ((s.recordFault .payloadLength).respond FaultCode.payloadLength.code []) := by
  simp [command, hf, hl, raiseFault]

/-- Steps 4 and 5 of R83: the first check that fails. -/
theorem command_fault {f : FaultCode} (hf : s.FAULT = false) (hl : s.payload.length = len) (hb : body = .error f) :
    command whenHalted len body s = .next ((s.recordFault f).respond f.code []) := by
  simp [command, hf, hl, hb, raiseFault]

/-- Step 6 of R83, the engine not halted. -/
theorem command_done {s' : State} {out : List Byte} (hf : s.FAULT = false) (hl : s.payload.length = len)
    (hb : body = .ok (s', out)) : command whenHalted len body s = .next (s'.respond rcOK out) := by
  simp [command, hf, hl, hb]

/-- Step 6 of R83 for the commands that run whether the engine is halted or not. -/
theorem command_done_whenHalted {s' : State} {out : List Byte} (hw : whenHalted = true) (hp : s.payload = [])
    (hb : body = .ok (s', out)) : command whenHalted 0 body s = .next (s'.respond rcOK out) := by
  simp [command, hw, hp, hb]

/-- Everything a command can do (R83): it is refused, or it faults with nothing but the fault recorded, or it
makes the effect of its body. -/
theorem command_cases (whenHalted : Bool) (len : Nat) (body : Except FaultCode (State × List Byte)) (s : State) :
    (s.FAULT = true ∧ ¬ (whenHalted = true ∧ s.payload = []) ∧
        command whenHalted len body s = .next (s.respond rcRefused [])) ∨
      ((s.FAULT = true → whenHalted = true ∧ s.payload = []) ∧ s.payload.length ≠ len ∧
        command whenHalted len body s =
          .next ((s.recordFault .payloadLength).respond FaultCode.payloadLength.code [])) ∨
      (∃ f, (s.FAULT = true → whenHalted = true ∧ s.payload = []) ∧ s.payload.length = len ∧ body = .error f ∧
        command whenHalted len body s = .next ((s.recordFault f).respond f.code [])) ∨
      (∃ s' out, (s.FAULT = true → whenHalted = true ∧ s.payload = []) ∧ s.payload.length = len ∧
        body = .ok (s', out) ∧ command whenHalted len body s = .next (s'.respond rcOK out)) := by
  by_cases hr : s.FAULT = true ∧ ¬ (whenHalted = true ∧ s.payload = [])
  · exact .inl ⟨hr.1, hr.2, command_refused hr.1 hr.2⟩
  · have hrun : s.FAULT = true → whenHalted = true ∧ s.payload = [] := fun hf => by
      by_contra hx; exact hr ⟨hf, hx⟩
    by_cases hl : s.payload.length = len
    · cases hb : body with
      | error f => exact .inr (.inr (.inl ⟨f, hrun, hl, rfl, by simp only [command, if_neg hr, hl]; simp [raiseFault]⟩))
      | ok x =>
        exact .inr (.inr (.inr ⟨x.1, x.2, hrun, hl, rfl, by simp only [command, if_neg hr, hl]; simp⟩))
    · exact .inr (.inl ⟨hrun, hl, by simp only [command, if_neg hr]; simp [hl, raiseFault]⟩)

end CommandFrame

/-! ## `exec` as one frame around the body of each command -/

/-- The checks of steps 4 and 5 and the effect of step 6 of each command, as `exec` runs them. -/
def bodyOf (i : Instr) (s : State) : Except FaultCode (State × List Byte) :=
  match i with
  | .nop => .ok (s, [])
  | .srst => .ok (s.resetEngine, [])
  | .crd idx =>
    afterCheck (controlReg idx) fun reg => .ok (s, s.controlRegBytes reg)
  | .keyld => .ok ({ s with KEY := memWriteKey s.cfg.b s.payload, KL := true }, [])
  | .linit =>
    afterCheck (requireKey s) fun _ => .ok ({ s with L := linit s.cfg s.KEY, LST := .init }, [])
  | .sinit => .ok ({ s with S := sinit s.cfg, SST := .init }, [])
  | .mix =>
    afterCheck (requireInitialisedTables s) fun _ =>
      .ok ({ s with L := (mix s.cfg s.L s.S).1, S := (mix s.cfg s.L s.S).2, LST := .mixed, SST := .mixed }, [])
  | .expand =>
    afterCheck (requireKey s) fun _ =>
      .ok ({ s with L := (schedule s.cfg s.KEY).1, S := (schedule s.cfg s.KEY).2, LST := .mixed, SST := .mixed }, [])
  | .enc =>
    afterCheck (requireCompletedSchedule s) fun _ =>
      .ok ({ s with A := (encrypt s.S s.A s.B).1, B := (encrypt s.S s.A s.B).2 }, [])
  | .dec =>
    afterCheck (requireCompletedSchedule s) fun _ =>
      .ok ({ s with A := (decrypt s.S s.A s.B).1, B := (decrypt s.S s.A s.B).2 }, [])
  | .add rd rs1 rs2 => .ok (s.setReg rd (wordAdd (s.reg rs1) (s.reg rs2)), [])
  | .sub rd rs1 rs2 => .ok (s.setReg rd (wordSub (s.reg rs1) (s.reg rs2)), [])
  | .xor rd rs1 rs2 => .ok (s.setReg rd (wordXor (s.reg rs1) (s.reg rs2)), [])
  | .rotl rd rs1 rs2 => .ok (s.setReg rd (rotl (s.reg rs1) (s.reg rs2)), [])
  | .rotr rd rs1 rs2 => .ok (s.setReg rd (rotr (s.reg rs1) (s.reg rs2)), [])
  | .wld rd => .ok (s.setReg rd (fromBytes s.cfg.w s.payload), [])
  | .wst rs1 => .ok (s, toBytes (s.reg rs1))
  | .blkld =>
    .ok ({ s with A := fromBytes s.cfg.w (s.payload.take s.cfg.u)
                  B := fromBytes s.cfg.w (s.payload.drop s.cfg.u) }, [])
  | .blkst => .ok (s, toBytes s.A ++ toBytes s.B)
  | .srd idx =>
    afterCheck (requireWritten s.SST) fun _ =>
      afterCheck (tableElement s.S idx) fun v => .ok (s, toBytes v)
  | .lrd idx =>
    afterCheck (requireWritten s.LST) fun _ =>
      afterCheck (tableElement s.L idx) fun v => .ok (s, toBytes v)
  | .smv rd idx =>
    afterCheck (requireWritten s.SST) fun _ =>
      afterCheck (tableElement s.S idx) fun v => .ok (s.setReg rd v, [])

/-- Every command runs its body in the one frame of R83, with its `n_in` (R76) and its place in R222. -/
theorem exec_eq_command (i : Instr) (s : State) :
    exec i s = command (runsWhenHalted i) (nIn s.cfg i) (bodyOf i s) s := by
  cases i <;> rfl

/-- Everything `exec` can do, for every command: see `command_cases`. -/
theorem exec_cases (i : Instr) (s : State) :
    (s.FAULT = true ∧ ¬ (runsWhenHalted i = true ∧ s.payload = []) ∧ exec i s = .next (s.respond rcRefused [])) ∨
      ((s.FAULT = true → runsWhenHalted i = true ∧ s.payload = []) ∧ s.payload.length ≠ nIn s.cfg i ∧
        exec i s = .next ((s.recordFault .payloadLength).respond FaultCode.payloadLength.code [])) ∨
      (∃ f, (s.FAULT = true → runsWhenHalted i = true ∧ s.payload = []) ∧ s.payload.length = nIn s.cfg i ∧
        bodyOf i s = .error f ∧ exec i s = .next ((s.recordFault f).respond f.code [])) ∨
      (∃ s' out, (s.FAULT = true → runsWhenHalted i = true ∧ s.payload = []) ∧ s.payload.length = nIn s.cfg i ∧
        bodyOf i s = .ok (s', out) ∧ exec i s = .next (s'.respond rcOK out)) := by
  rw [exec_eq_command]
  exact command_cases _ _ _ _

/-! ## `step` on each kind of host event -/

theorem step_of_no_event {s : State} (h : s.inputs = []) : step s = .next s := by
  simp [step, h, idle]

theorem step_of_hardwareReset {s : State} {rest : List HostEvent} (h : s.inputs = .hardwareReset :: rest) :
    step s = .next { s.resetEngine with inputs := rest } := by
  simp [step, h, hardwareReset]

theorem step_of_decoded {s : State} {cw : CommandWord} {inp : List Byte} {rest : List HostEvent} {i : Instr}
    (h : s.inputs = .transaction cw inp :: rest) (hd : decode cw = .ok i) : step s = exec i s := by
  simp [step, h, hd]

theorem step_of_illegal {s : State} {cw : CommandWord} {inp : List Byte} {rest : List HostEvent} {e : Illegal}
    (h : s.inputs = .transaction cw inp :: rest) (hd : decode cw = .error e) : step s = illegalCommand s := by
  simp [step, h, hd]

/-- Everything an illegal word can do (R212, R222). -/
theorem illegalCommand_cases (s : State) :
    (s.FAULT = true ∧ illegalCommand s = .next (s.respond rcRefused [])) ∨
      (s.FAULT = false ∧
        illegalCommand s = .next ((s.recordFault .illegalCommand).respond FaultCode.illegalCommand.code [])) := by
  unfold illegalCommand
  cases h : s.FAULT
  · exact .inr ⟨rfl, by simp [raiseFault]⟩
  · exact .inl ⟨rfl, by simp [refuseHalted]⟩

end Sys2Proof.Machine
end

