-- ==== Sys2Proof/Laws/Words.lean ====
section
/-! SUPPORT. The word functions as Lean's own word operations, the lengths and elements of codec outputs, and
the equations of the tables and loops. -/

namespace Sys2Proof.Machine

section Arithmetic

variable {w : Nat}

/-- `add` is the sum of bit vectors (R101). -/
theorem wordAdd_eq (l r : Word w) : wordAdd l r = l + r := by
  apply BitVec.eq_of_toNat_eq
  simp [wordAdd]

/-- `sub` is the difference of bit vectors (R102). -/
theorem wordSub_eq (l r : Word w) : wordSub l r = l - r := by
  apply BitVec.eq_of_toInt_eq
  rw [wordSub, BitVec.toInt_ofInt, BitVec.toInt_sub]
  simp [BitVec.toInt_eq_toNat_bmod]

theorem wordXor_eq (l r : Word w) : wordXor l r = l ^^^ r := rfl

/-- `rotl` by a number is the rotation of bit vectors (R104). -/
theorem rotlBy_eq (l : Word w) (amount : Nat) : rotlBy l amount = l.rotateLeft amount := by
  apply BitVec.eq_of_toNat_eq
  simp only [rotlBy, BitVec.rotateLeft, BitVec.rotateLeftAux, BitVec.toNat_or, BitVec.toNat_shiftLeft,
    BitVec.toNat_ushiftRight, BitVec.toNat_ofNat]
  rw [Nat.or_mod_two_pow]
  congr 1
  exact Nat.mod_eq_of_lt (Nat.lt_of_le_of_lt (Nat.shiftRight_le _ _) l.isLt)

/-- `rotr` by a number is the rotation of bit vectors (R105). -/
theorem rotrBy_eq (l : Word w) (amount : Nat) : rotrBy l amount = l.rotateRight amount := by
  apply BitVec.eq_of_toNat_eq
  simp only [rotrBy, BitVec.rotateRight, BitVec.rotateRightAux, BitVec.toNat_or, BitVec.toNat_shiftLeft,
    BitVec.toNat_ushiftRight, BitVec.toNat_ofNat]
  rw [Nat.or_mod_two_pow]
  congr 1
  exact Nat.mod_eq_of_lt (Nat.lt_of_le_of_lt (Nat.shiftRight_le _ _) l.isLt)

theorem rotl_eq (l amount : Word w) : rotl l amount = l.rotateLeft amount.toNat := rotlBy_eq l amount.toNat

theorem rotr_eq (l amount : Word w) : rotr l amount = l.rotateRight amount.toNat := rotrBy_eq l amount.toNat

end Arithmetic

section Codec

variable {w : Nat}

@[simp] theorem toBytes_length (x : Word w) : (toBytes x).length = ceilDiv w 8 := by
  simp [toBytes]

@[simp] theorem toBytes_getElem (x : Word w) (m : Nat) (h : m < (toBytes x).length) :
    (toBytes x)[m] = wordByte x m := by
  simp [toBytes]

@[simp] theorem wordByte_toNat (x : Word w) (m : Nat) : (wordByte x m).toNat = x.toNat / 2 ^ (8 * m) % 2 ^ 8 := by
  simp [wordByte]

@[simp] theorem leValue_nil : leValue [] = 0 := rfl

@[simp] theorem leValue_cons (byte : Byte) (rest : List Byte) :
    leValue (byte :: rest) = byte.toNat + 2 ^ 8 * leValue rest := rfl

/-- A byte string of `n` bytes is a number below `2^(8n)`. -/
theorem leValue_lt (buf : List Byte) : leValue buf < 2 ^ (8 * buf.length) := by
  induction buf with
  | nil => simp
  | cons byte rest ih =>
    have hb := byte.isLt
    have hp : 2 ^ (8 * (byte :: rest).length) = 2 ^ 8 * 2 ^ (8 * rest.length) := by
      rw [List.length_cons, Nat.mul_add, Nat.pow_add]; omega
    rw [leValue_cons, hp]
    omega

/-- `w ≤ 8u`: the bytes of a word hold all its bits (R6). -/
theorem le_eight_ceilDiv (w : Nat) : w ≤ 8 * ceilDiv w 8 := by
  unfold ceilDiv; omega

@[simp] theorem fromBytes_toNat (buf : List Byte) : (fromBytes w buf).toNat = leValue buf % 2 ^ w := by
  simp [fromBytes]

end Codec

section KeyBuffer

variable {b : Nat}

theorem keyByte_of_lt {KEY : Vector Byte b} {k : Nat} (h : k < b) : keyByte KEY k = KEY[k] := by
  simp [keyByte, h]

theorem keyByte_of_ge {KEY : Vector Byte b} {k : Nat} (h : b ≤ k) : keyByte KEY k = 0 := by
  simp [keyByte, Nat.not_lt.mpr h]

@[simp] theorem memReadKey_length (KEY : Vector Byte b) (k n : Nat) : (memReadKey KEY k n).length = n := by
  simp [memReadKey]

/-- A string of exactly `b` bytes is stored whole (R22). -/
theorem memWriteKey_toList {str : List Byte} (h : str.length = b) : (memWriteKey b str).toList = str := by
  apply List.ext_getElem
  · simp [h]
  · intro k h1 h2
    simp [memWriteKey, List.getElem?_eq_getElem h2]

end KeyBuffer

section Tables

variable (cfg : Config)

@[simp] theorem linit_getElem (key : Vector Byte cfg.b) (k : Nat) (h : k < cfg.c) :
    (linit cfg key)[k] = fromBytes cfg.w (keyChunk cfg key k) := by
  simp [linit]

@[simp] theorem sinit_getElem (i : Nat) (h : i < cfg.t) : (sinit cfg)[i] = sinitWord cfg i := by
  simp [sinit]

@[simp] theorem sinitWord_zero : sinitWord cfg 0 = cfg.P := rfl

@[simp] theorem sinitWord_succ (i : Nat) : sinitWord cfg (i + 1) = wordAdd (sinitWord cfg i) cfg.Q := rfl

@[simp] theorem mixAfter_zero (L : Vector (Word cfg.w) cfg.c) (S : Vector (Word cfg.w) cfg.t) :
    mixAfter cfg L S 0 = mixStart cfg L S := rfl

@[simp] theorem mixAfter_succ (L : Vector (Word cfg.w) cfg.c) (S : Vector (Word cfg.w) cfg.t) (n : Nat) :
    mixAfter cfg L S (n + 1) = mixIteration (mixAfter cfg L S n) := rfl

end Tables

section Cipher

variable {cfg : Config} (S : Vector (Word cfg.w) cfg.t)

theorem encAfter_zero (x : Word cfg.w × Word cfg.w) (h : 0 ≤ cfg.r) :
    encAfter S x 0 h = (wordAdd x.1 (S[0]'cfg.t_pos), wordAdd x.2 (S[1]'cfg.one_lt_t)) := rfl

theorem encAfter_succ (x : Word cfg.w × Word cfg.w) (k : Nat) (h : k + 1 ≤ cfg.r) :
    encAfter S x (k + 1) h = encRound S (k + 1) h (encAfter S x k (Nat.le_of_succ_le h)) := rfl

theorem decFrom_zero (x : Word cfg.w × Word cfg.w) (h : 0 ≤ cfg.r) :
    decFrom S 0 h x = (wordSub x.1 (S[0]'cfg.t_pos), wordSub x.2 (S[1]'cfg.one_lt_t)) := rfl

theorem decFrom_succ (x : Word cfg.w × Word cfg.w) (k : Nat) (h : k + 1 ≤ cfg.r) :
    decFrom S (k + 1) h x = decFrom S k (Nat.le_of_succ_le h) (decRound S (k + 1) h x) := rfl

end Cipher

section Operands

variable {w n : Nat}

theorem tableElement_of_lt {table : Vector (Word w) n} {idx : Nat} (h : idx < n) :
    tableElement table idx = .ok table[idx] := by
  simp [tableElement, h]

theorem tableElement_of_ge {table : Vector (Word w) n} {idx : Nat} (h : n ≤ idx) :
    tableElement table idx = .error .indexRange := by
  simp [tableElement, Nat.not_lt.mpr h]

/-- A number above 6 names no control register (R28). -/
theorem controlReg_of_gt {idx : Nat} (h : 6 < idx) : controlReg idx = .error .indexRange := by
  match idx, h with
  | k + 7, _ => rfl

/-- A number up to 6 names a control register (R28). -/
theorem controlReg_of_le {idx : Nat} (h : idx ≤ 6) : ∃ reg, controlReg idx = .ok reg := by
  interval_cases idx <;> exact ⟨_, rfl⟩

@[simp] theorem registerBytes_length (v : BitVec 32) : (registerBytes v).length = 4 := rfl

end Operands

end Sys2Proof.Machine
end

