-- ==== Sys2Proof/Laws/Exec.lean ====
section
/-! SUPPORT. When each check passes and what it raises, and what the body of a command can do: the faults it can
raise, and the fields it leaves alone when it executes. -/

namespace Sys2Proof.Machine

section Checks

variable {s : State} {f : FaultCode} {u : Unit}

theorem requireKey_ok : requireKey s = .ok u ↔ s.KL = true := by
  unfold requireKey; split <;> simp_all

theorem requireKey_error : requireKey s = .error f ↔ s.KL = false ∧ f = .keyNotLoaded := by
  unfold requireKey
  split <;> rename_i h <;> simp [h, eq_comm (a := f)]

theorem requireInitialisedTables_ok : requireInitialisedTables s = .ok u ↔ s.LST = .init ∧ s.SST = .init := by
  unfold requireInitialisedTables; split <;> simp_all

theorem requireInitialisedTables_error :
    requireInitialisedTables s = .error f ↔ ¬ (s.LST = .init ∧ s.SST = .init) ∧ f = .sequenceError := by
  unfold requireInitialisedTables
  split <;> rename_i h <;> simp [h, eq_comm (a := f)]

theorem requireCompletedSchedule_ok : requireCompletedSchedule s = .ok u ↔ s.SST = .mixed := by
  unfold requireCompletedSchedule; split <;> simp_all

theorem requireCompletedSchedule_error :
    requireCompletedSchedule s = .error f ↔ s.SST ≠ .mixed ∧ f = .tableNotReady := by
  unfold requireCompletedSchedule
  split <;> rename_i h <;> simp [h, eq_comm (a := f)]

theorem requireWritten_ok {table : TableState} : requireWritten table = .ok u ↔ table ≠ .empty := by
  unfold requireWritten; split <;> simp_all

theorem requireWritten_error {table : TableState} :
    requireWritten table = .error f ↔ table = .empty ∧ f = .tableNotReady := by
  unfold requireWritten
  split <;> rename_i h <;> simp [h, eq_comm (a := f)]

theorem tableElement_ok {w n idx : Nat} {table : Vector (Word w) n} {v : Word w} :
    tableElement table idx = .ok v ↔ ∃ h : idx < n, table[idx] = v := by
  unfold tableElement; split <;> simp_all

theorem tableElement_error {w n idx : Nat} {table : Vector (Word w) n} :
    tableElement table idx = .error f ↔ n ≤ idx ∧ f = .indexRange := by
  unfold tableElement
  split <;> rename_i h <;> simp [h, Nat.not_lt.mp, eq_comm (a := f)]

theorem controlReg_error {idx : Nat} : controlReg idx = .error f ↔ 6 < idx ∧ f = .indexRange := by
  rcases Nat.lt_or_ge 6 idx with h | h
  · simp [controlReg_of_gt h, h, eq_comm]
  · obtain ⟨reg, hr⟩ := controlReg_of_le h
    simp [hr, Nat.not_lt.mpr h]

end Checks

/-- A check followed by the rest of a body: it is the rest if the check passes, else the fault. -/
theorem afterCheck_ok {α β : Type} {check : Except FaultCode α} {rest : α → Except FaultCode β} {y : β} :
    afterCheck check rest = .ok y ↔ ∃ a, check = .ok a ∧ rest a = .ok y := by
  cases check <;> simp [afterCheck]

/-- See `afterCheck_ok`. -/
theorem afterCheck_error {α β : Type} {check : Except FaultCode α} {rest : α → Except FaultCode β} {f : FaultCode} :
    afterCheck check rest = .error f ↔ check = .error f ∨ ∃ a, check = .ok a ∧ rest a = .error f := by
  cases check <;> simp [afterCheck]

/-- The faults a body raises, and when: codes 2 to 5, each for the commands R211 lists (R213 to R216). -/
theorem bodyOf_error {i : Instr} {s : State} {f : FaultCode} (h : bodyOf i s = .error f) :
    (f = .keyNotLoaded ∧ (i = .linit ∨ i = .expand) ∧ s.KL = false) ∨
      (f = .sequenceError ∧ i = .mix ∧ ¬ (s.LST = .init ∧ s.SST = .init)) ∨
      (f = .tableNotReady ∧ (((i = .enc ∨ i = .dec) ∧ s.SST ≠ .mixed) ∨
        (((∃ idx, i = .srd idx) ∨ ∃ rd idx, i = .smv rd idx) ∧ s.SST = .empty) ∨
        ((∃ idx, i = .lrd idx) ∧ s.LST = .empty))) ∨
      (f = .indexRange ∧ ∃ idx, ((i = .srd idx ∨ ∃ rd, i = .smv rd idx) ∧ s.cfg.t ≤ idx) ∨
        (i = .lrd idx ∧ s.cfg.c ≤ idx) ∨ (i = .crd idx ∧ 6 < idx)) := by
  cases i <;>
    simp only [bodyOf, afterCheck_error, requireKey_error, requireInitialisedTables_error, requireCompletedSchedule_error,
      requireWritten_error, tableElement_error, controlReg_error, reduceCtorEq, and_false, exists_false, or_false] at h
  case crd idx => exact .inr (.inr (.inr ⟨h.2, idx, .inr (.inr ⟨rfl, h.1⟩)⟩))
  case linit => exact .inl ⟨h.2, .inl rfl, h.1⟩
  case expand => exact .inl ⟨h.2, .inr rfl, h.1⟩
  case mix => exact .inr (.inl ⟨h.2, rfl, h.1⟩)
  case enc => exact .inr (.inr (.inl ⟨h.2, .inl ⟨.inl rfl, h.1⟩⟩))
  case dec => exact .inr (.inr (.inl ⟨h.2, .inl ⟨.inr rfl, h.1⟩⟩))
  case srd idx =>
    rcases h with h | ⟨_, -, h⟩
    · exact .inr (.inr (.inl ⟨h.2, .inr (.inl ⟨.inl ⟨idx, rfl⟩, h.1⟩)⟩))
    · exact .inr (.inr (.inr ⟨h.2, idx, .inl ⟨.inl rfl, h.1⟩⟩))
  case smv rd idx =>
    rcases h with h | ⟨_, -, h⟩
    · exact .inr (.inr (.inl ⟨h.2, .inr (.inl ⟨.inr ⟨rd, idx, rfl⟩, h.1⟩)⟩))
    · exact .inr (.inr (.inr ⟨h.2, idx, .inl ⟨.inr ⟨rd, rfl⟩, h.1⟩⟩))
  case lrd idx =>
    rcases h with h | ⟨_, -, h⟩
    · exact .inr (.inr (.inl ⟨h.2, .inr (.inr ⟨⟨idx, rfl⟩, h.1⟩)⟩))
    · exact .inr (.inr (.inr ⟨h.2, idx, .inr (.inl ⟨rfl, h.1⟩)⟩))

/-- What a body that executes gives: one of the updates below. The updates name every field a command writes. -/
theorem bodyOf_ok {i : Instr} {s s' : State} {out : List Byte} (h : bodyOf i s = .ok (s', out)) :
    (s' = s ∧ ((∃ idx, i = .crd idx) ∨ (∃ idx, i = .srd idx) ∨ (∃ idx, i = .lrd idx) ∨ (∃ rs1, i = .wst rs1) ∨
        i = .blkst ∨ i = .nop)) ∨
      (s' = s.resetEngine ∧ i = .srst) ∨
      (∃ rd v, s' = s.setReg rd v ∧ ∀ r, writesReg i r = decide (rd = r)) ∨
      (∃ A B, s' = { s with A := A, B := B } ∧ (i = .enc ∨ i = .dec ∨ i = .blkld)) ∨
      (∃ KEY, s' = { s with KEY := KEY, KL := true } ∧ i = .keyld) ∨
      (s' = { s with L := linit s.cfg s.KEY, LST := .init } ∧ i = .linit ∧ s.KL = true) ∨
      (s' = { s with S := sinit s.cfg, SST := .init } ∧ i = .sinit) ∨
      (s' = { s with L := (mix s.cfg s.L s.S).1, S := (mix s.cfg s.L s.S).2, LST := .mixed, SST := .mixed } ∧
        i = .mix ∧ s.LST = .init ∧ s.SST = .init) ∨
      (s' = { s with L := (schedule s.cfg s.KEY).1, S := (schedule s.cfg s.KEY).2, LST := .mixed, SST := .mixed } ∧
        i = .expand ∧ s.KL = true) := by
  cases i <;>
    simp only [bodyOf, afterCheck_ok, requireKey_ok, requireInitialisedTables_ok, requireCompletedSchedule_ok,
      requireWritten_ok, tableElement_ok, Except.ok.injEq, Prod.mk.injEq] at h
  case nop => exact .inl ⟨h.1.symm, by simp⟩
  case srst => exact .inr (.inl ⟨h.1.symm, rfl⟩)
  case crd idx => obtain ⟨_, -, h, -⟩ := h; exact .inl ⟨h.symm, by simp⟩
  case keyld => exact .inr (.inr (.inr (.inr (.inl ⟨_, h.1.symm, rfl⟩))))
  case linit => obtain ⟨_, hk, h, -⟩ := h; exact .inr (.inr (.inr (.inr (.inr (.inl ⟨h.symm, rfl, hk⟩)))))
  case sinit => exact .inr (.inr (.inr (.inr (.inr (.inr (.inl ⟨h.1.symm, rfl⟩))))))
  case mix =>
    obtain ⟨_, hk, h, -⟩ := h
    exact .inr (.inr (.inr (.inr (.inr (.inr (.inr (.inl ⟨h.symm, rfl, hk⟩)))))))
  case expand =>
    obtain ⟨_, hk, h, -⟩ := h
    exact .inr (.inr (.inr (.inr (.inr (.inr (.inr (.inr ⟨h.symm, rfl, hk⟩)))))))
  case enc => obtain ⟨_, -, h, -⟩ := h; exact .inr (.inr (.inr (.inl ⟨_, _, h.symm, by simp⟩)))
  case dec => obtain ⟨_, -, h, -⟩ := h; exact .inr (.inr (.inr (.inl ⟨_, _, h.symm, by simp⟩)))
  case blkld => exact .inr (.inr (.inr (.inl ⟨_, _, h.1.symm, by simp⟩)))
  case wst => exact .inl ⟨h.1.symm, by simp⟩
  case blkst => exact .inl ⟨h.1.symm, by simp⟩
  case srd => obtain ⟨_, -, _, -, h, -⟩ := h; exact .inl ⟨h.symm, by simp⟩
  case lrd => obtain ⟨_, -, _, -, h, -⟩ := h; exact .inl ⟨h.symm, by simp⟩
  case smv rd idx => obtain ⟨_, -, v, -, h, -⟩ := h; exact .inr (.inr (.inl ⟨rd, v, h.symm, fun _ => rfl⟩))
  case add rd _ _ => exact .inr (.inr (.inl ⟨rd, _, h.1.symm, fun _ => rfl⟩))
  case sub rd _ _ => exact .inr (.inr (.inl ⟨rd, _, h.1.symm, fun _ => rfl⟩))
  case xor rd _ _ => exact .inr (.inr (.inl ⟨rd, _, h.1.symm, fun _ => rfl⟩))
  case rotl rd _ _ => exact .inr (.inr (.inl ⟨rd, _, h.1.symm, fun _ => rfl⟩))
  case rotr rd _ _ => exact .inr (.inr (.inl ⟨rd, _, h.1.symm, fun _ => rfl⟩))
  case wld rd => exact .inr (.inr (.inl ⟨rd, _, h.1.symm, fun _ => rfl⟩))

end Sys2Proof.Machine
end

