-- ==== Sys2Proof/Laws/PerInstr.lean ====
section
/-! SUPPORT. Statements made of every instruction, one lemma per constructor. `RowSelected`: the word of a
well-formed instruction shows, under the mask of its format, the opcode of its row and nothing else (R72, R75).
`FieldsInRange`: its operands fit their fields, and the fields its format does not use are 0 (R71, R72). -/

namespace Sys2Proof.Laws

namespace RowSelected

/-- The word of the instruction selects its row (R75). -/
def Statement (i : Instr) : Prop :=
  i.WellFormed → encode i &&& formatMask (formatOf i) = BitVec.ofNat 32 (opcodeOf i * 2 ^ 24)

theorem nop : Statement .nop :=
  fun _ => by decide

theorem srst : Statement .srst :=
  fun _ => by decide

theorem crd (idx : Nat) : Statement (.crd idx) :=
  fun h => assemble_and_mask .X (by decide) (by decide) (by decide) (by decide) (of_decide_eq_true h)
    (by simp) (by simp) (by simp) (by simp [usesIdx])

theorem keyld : Statement .keyld :=
  fun _ => by decide

theorem linit : Statement .linit :=
  fun _ => by decide

theorem sinit : Statement .sinit :=
  fun _ => by decide

theorem mix : Statement .mix :=
  fun _ => by decide

theorem expand : Statement .expand :=
  fun _ => by decide

theorem enc : Statement .enc :=
  fun _ => by decide

theorem dec : Statement .dec :=
  fun _ => by decide

theorem add (rd : Reg) (rs1 : Reg) (rs2 : Reg) : Statement (.add rd rs1 rs2) :=
  fun _ => by cases rd <;> cases rs1 <;> cases rs2 <;> decide

theorem sub (rd : Reg) (rs1 : Reg) (rs2 : Reg) : Statement (.sub rd rs1 rs2) :=
  fun _ => by cases rd <;> cases rs1 <;> cases rs2 <;> decide

theorem xor (rd : Reg) (rs1 : Reg) (rs2 : Reg) : Statement (.xor rd rs1 rs2) :=
  fun _ => by cases rd <;> cases rs1 <;> cases rs2 <;> decide

theorem rotl (rd : Reg) (rs1 : Reg) (rs2 : Reg) : Statement (.rotl rd rs1 rs2) :=
  fun _ => by cases rd <;> cases rs1 <;> cases rs2 <;> decide

theorem rotr (rd : Reg) (rs1 : Reg) (rs2 : Reg) : Statement (.rotr rd rs1 rs2) :=
  fun _ => by cases rd <;> cases rs1 <;> cases rs2 <;> decide

theorem wld (rd : Reg) : Statement (.wld rd) :=
  fun _ => by cases rd <;> decide

theorem wst (rs1 : Reg) : Statement (.wst rs1) :=
  fun _ => by cases rs1 <;> decide

theorem blkld : Statement .blkld :=
  fun _ => by decide

theorem blkst : Statement .blkst :=
  fun _ => by decide

theorem srd (idx : Nat) : Statement (.srd idx) :=
  fun h => assemble_and_mask .X (by decide) (by decide) (by decide) (by decide) (of_decide_eq_true h)
    (by simp) (by simp) (by simp) (by simp [usesIdx])

theorem lrd (idx : Nat) : Statement (.lrd idx) :=
  fun h => assemble_and_mask .X (by decide) (by decide) (by decide) (by decide) (of_decide_eq_true h)
    (by simp) (by simp) (by simp) (by simp [usesIdx])

theorem smv (rd : Reg) (idx : Nat) : Statement (.smv rd idx) :=
  fun h => assemble_and_mask .DX (by decide) (regBit_lt rd) (by decide) (by decide) (of_decide_eq_true h)
    (by simp [usesRd]) (by simp) (by simp) (by simp [usesIdx])

end RowSelected

namespace FieldsInRange

/-- The fields of the word of a well-formed instruction: the opcode of its row, `z = 0`, and 0 in every field
its format does not use (R71, R72). -/
def Statement (i : Instr) : Prop :=
  i.WellFormed → opField (encode i) = opcodeOf i ∧ zField (encode i) = 0 ∧
    (usesRd (formatOf i) = false → rdField (encode i) = 0) ∧ (usesRs1 (formatOf i) = false → rs1Field (encode i) = 0) ∧
    (usesRs2 (formatOf i) = false → rs2Field (encode i) = 0) ∧ (usesIdx (formatOf i) = false → idxField (encode i) = 0)

theorem nop : Statement .nop :=
  fun _ => by decide

theorem srst : Statement .srst :=
  fun _ => by decide

theorem crd (idx : Nat) : Statement (.crd idx) :=
  fun h => by
  obtain ⟨e1, e2, e3, e4, e5, -⟩ :=
    fields_assemble (op := 0x02) (by decide) (rd := 0) (by decide) (rs1 := 0) (by decide) (rs2 := 0) (by decide) (of_decide_eq_true h)
  exact ⟨e1, e5, fun _ => e2, fun _ => e3, fun _ => e4, fun hx => by simp [formatOf, usesIdx] at hx⟩

theorem keyld : Statement .keyld :=
  fun _ => by decide

theorem linit : Statement .linit :=
  fun _ => by decide

theorem sinit : Statement .sinit :=
  fun _ => by decide

theorem mix : Statement .mix :=
  fun _ => by decide

theorem expand : Statement .expand :=
  fun _ => by decide

theorem enc : Statement .enc :=
  fun _ => by decide

theorem dec : Statement .dec :=
  fun _ => by decide

theorem add (rd : Reg) (rs1 : Reg) (rs2 : Reg) : Statement (.add rd rs1 rs2) :=
  fun _ => by cases rd <;> cases rs1 <;> cases rs2 <;> decide

theorem sub (rd : Reg) (rs1 : Reg) (rs2 : Reg) : Statement (.sub rd rs1 rs2) :=
  fun _ => by cases rd <;> cases rs1 <;> cases rs2 <;> decide

theorem xor (rd : Reg) (rs1 : Reg) (rs2 : Reg) : Statement (.xor rd rs1 rs2) :=
  fun _ => by cases rd <;> cases rs1 <;> cases rs2 <;> decide

theorem rotl (rd : Reg) (rs1 : Reg) (rs2 : Reg) : Statement (.rotl rd rs1 rs2) :=
  fun _ => by cases rd <;> cases rs1 <;> cases rs2 <;> decide

theorem rotr (rd : Reg) (rs1 : Reg) (rs2 : Reg) : Statement (.rotr rd rs1 rs2) :=
  fun _ => by cases rd <;> cases rs1 <;> cases rs2 <;> decide

theorem wld (rd : Reg) : Statement (.wld rd) :=
  fun _ => by cases rd <;> decide

theorem wst (rs1 : Reg) : Statement (.wst rs1) :=
  fun _ => by cases rs1 <;> decide

theorem blkld : Statement .blkld :=
  fun _ => by decide

theorem blkst : Statement .blkst :=
  fun _ => by decide

theorem srd (idx : Nat) : Statement (.srd idx) :=
  fun h => by
  obtain ⟨e1, e2, e3, e4, e5, -⟩ :=
    fields_assemble (op := 0x50) (by decide) (rd := 0) (by decide) (rs1 := 0) (by decide) (rs2 := 0) (by decide) (of_decide_eq_true h)
  exact ⟨e1, e5, fun _ => e2, fun _ => e3, fun _ => e4, fun hx => by simp [formatOf, usesIdx] at hx⟩

theorem lrd (idx : Nat) : Statement (.lrd idx) :=
  fun h => by
  obtain ⟨e1, e2, e3, e4, e5, -⟩ :=
    fields_assemble (op := 0x51) (by decide) (rd := 0) (by decide) (rs1 := 0) (by decide) (rs2 := 0) (by decide) (of_decide_eq_true h)
  exact ⟨e1, e5, fun _ => e2, fun _ => e3, fun _ => e4, fun hx => by simp [formatOf, usesIdx] at hx⟩

theorem smv (rd : Reg) (idx : Nat) : Statement (.smv rd idx) :=
  fun h => by
  obtain ⟨e1, e2, e3, e4, e5, -⟩ :=
    fields_assemble (op := 0x52) (by decide) (regBit_lt rd) (rs1 := 0) (by decide) (rs2 := 0) (by decide) (of_decide_eq_true h)
  exact ⟨e1, e5, fun hx => by simp [formatOf, usesRd] at hx, fun _ => e3, fun _ => e4, fun hx => by simp [formatOf, usesIdx] at hx⟩

end FieldsInRange

end Sys2Proof.Laws
end

