-- ==== Sys2Proof/Tests/Slice0.lean ====
section
/-! SUPPORT. The model's own tests: the well-formedness check, words written out from the spec's encodings, one-step
tests whose expected values stand in the spec, and for every statement with hypotheses a named state that meets them.
Every expected value is the spec's; the rule or the section it stands in is named. -/

namespace Sys2Proof.Tests

open Sys2Proof.Machine

/- One theorem after another: checked all at once, these would hold more thread stacks than the check's memory. -/
set_option Elab.async false

/-! ## Helpers -/

/-- The transaction that presents a word with a payload given as numbers. -/
def tx (cw : CommandWord) (inp : List Nat) : HostEvent := .transaction cw (inp.map (BitVec.ofNat 8))

/-- An instance after reset, its block registers loaded, the host's next event pending. -/
def board (cfg : Config) (A B : Nat) (event : HostEvent) : State :=
  { State.resetOf cfg with A := BitVec.ofNat _ A, B := BitVec.ofNat _ B, inputs := [event] }

/-- The same with a key in the buffer. -/
def keyed (cfg : Config) (key : List Nat) (event : HostEvent) : State :=
  { board cfg 0 0 event with KEY := memWriteKey _ (key.map (BitVec.ofNat 8)), KL := true }

/-- The same with both tables initialised from the key. -/
def initialised (cfg : Config) (key : List Nat) (event : HostEvent) : State :=
  let s := keyed cfg key event
  { s with L := linit s.cfg s.KEY, S := sinit s.cfg, LST := .init, SST := .init }

/-- The same with the key schedule completed, and a block in A and B. -/
def scheduled (cfg : Config) (key : List Nat) (A B : Nat) (event : HostEvent) : State :=
  let s := keyed cfg key event
  { s with
    A := BitVec.ofNat _ A
    B := BitVec.ofNat _ B
    L := (schedule s.cfg s.KEY).1
    S := (schedule s.cfg s.KEY).2
    LST := .mixed
    SST := .mixed }

/-- An instance halted by an ENC straight after reset (R215). -/
def halted (cfg : Config) (event : HostEvent) : State :=
  { board cfg 0 0 event with FAULT := true, FCODE := 4, FCW := 0x20000000 }

/-- What holds of the state one step on. -/
def after (s : State) (p : State → Bool) : Bool :=
  match step s with
  | .next t => p t
  | .fault _ => false
  | .refused _ => false

/-- The one answer given. -/
def answered (t : State) (rc : BitVec 8) (out : List Nat) : Bool :=
  decide (t.responses = [⟨rc, out.map (BitVec.ofNat 8)⟩])

/-- Sixteen zero bytes. -/
def zeroKey : List Nat := List.replicate 16 0

/-- The key of the source's second vector (95_test_vectors.md section 5.1, E2). -/
def key2 : List Nat :=
  [0x91, 0x5f, 0x46, 0x19, 0xbe, 0x41, 0xb2, 0x51, 0x63, 0x55, 0xa5, 0x01, 0x10, 0xa9, 0xce, 0x91]

/-! ## Well-formedness: an index of 17 bits is refused, one of 16 is not (R71, R74) -/

theorem test_wf_refuses_crd : (Instr.crd 65536).wf = false ∧ (Instr.crd 65535).wf = true := by decide
theorem test_wf_refuses_srd : (Instr.srd 65536).wf = false ∧ (Instr.srd 65535).wf = true := by decide
theorem test_wf_refuses_lrd : (Instr.lrd 65536).wf = false ∧ (Instr.lrd 65535).wf = true := by decide
theorem test_wf_refuses_smv : (Instr.smv .B 65536).wf = false ∧ (Instr.smv .B 65535).wf = true := by decide

/-! ## Decoding: words written out as op, rd, rs1, rs2, z, idx (R71, R75; 96_test_programs.md section 6) -/

theorem test_decode_nop : decode (0b00000000#8 ++ 0b000#3 ++ 0b00000#5 ++ 0#16) = .ok .nop := by decide
theorem test_decode_srst : decode (0b00000001#8 ++ 0b000#3 ++ 0b00000#5 ++ 0#16) = .ok .srst := by decide
theorem test_decode_crd : decode (0b00000010#8 ++ 0b000#3 ++ 0b00000#5 ++ 65535#16) = .ok (.crd 65535) := by decide
theorem test_decode_keyld : decode (0b00010000#8 ++ 0b000#3 ++ 0b00000#5 ++ 0#16) = .ok .keyld := by decide
theorem test_decode_linit : decode (0b00010001#8 ++ 0b000#3 ++ 0b00000#5 ++ 0#16) = .ok .linit := by decide
theorem test_decode_sinit : decode (0b00010010#8 ++ 0b000#3 ++ 0b00000#5 ++ 0#16) = .ok .sinit := by decide
theorem test_decode_mix : decode (0b00010011#8 ++ 0b000#3 ++ 0b00000#5 ++ 0#16) = .ok .mix := by decide
theorem test_decode_expand : decode (0b00010100#8 ++ 0b000#3 ++ 0b00000#5 ++ 0#16) = .ok .expand := by decide
theorem test_decode_enc : decode (0b00100000#8 ++ 0b000#3 ++ 0b00000#5 ++ 0#16) = .ok .enc := by decide
theorem test_decode_dec : decode (0b00100001#8 ++ 0b000#3 ++ 0b00000#5 ++ 0#16) = .ok .dec := by decide
theorem test_decode_add : decode (0b00110000#8 ++ 0b110#3 ++ 0b00000#5 ++ 0#16) = .ok (.add .B .B .A) := by decide
theorem test_decode_sub : decode (0b00110001#8 ++ 0b011#3 ++ 0b00000#5 ++ 0#16) = .ok (.sub .A .B .B) := by decide
theorem test_decode_xor : decode (0b00110010#8 ++ 0b111#3 ++ 0b00000#5 ++ 0#16) = .ok (.xor .B .B .B) := by decide
theorem test_decode_rotl : decode (0b00110011#8 ++ 0b101#3 ++ 0b00000#5 ++ 0#16) = .ok (.rotl .B .A .B) := by decide
theorem test_decode_rotr : decode (0b00110100#8 ++ 0b010#3 ++ 0b00000#5 ++ 0#16) = .ok (.rotr .A .B .A) := by decide
theorem test_decode_wld : decode (0b01000000#8 ++ 0b100#3 ++ 0b00000#5 ++ 0#16) = .ok (.wld .B) := by decide
theorem test_decode_wst : decode (0b01000001#8 ++ 0b010#3 ++ 0b00000#5 ++ 0#16) = .ok (.wst .B) := by decide
theorem test_decode_blkld : decode (0b01000010#8 ++ 0b000#3 ++ 0b00000#5 ++ 0#16) = .ok .blkld := by decide
theorem test_decode_blkst : decode (0b01000011#8 ++ 0b000#3 ++ 0b00000#5 ++ 0#16) = .ok .blkst := by decide
theorem test_decode_srd : decode (0b01010000#8 ++ 0b000#3 ++ 0b00000#5 ++ 25#16) = .ok (.srd 25) := by decide
theorem test_decode_lrd : decode (0b01010001#8 ++ 0b000#3 ++ 0b00000#5 ++ 3#16) = .ok (.lrd 3) := by decide
theorem test_decode_smv : decode (0b01010010#8 ++ 0b100#3 ++ 0b00000#5 ++ 1#16) = .ok (.smv .B 1) := by decide

/-- The illegal words of 96_test_programs.md section 6, by cause. -/
theorem test_decode_illegal :
    ([0x03000000, 0x0F000000, 0x15000000, 0x22000000, 0x35000000, 0x44000000, 0x53000000, 0xFF000000, 0xFFFFFFFF] :
        List CommandWord).all (fun cw => decide (decode cw = .error .unassignedOp)) = true ∧
      ([0x01010000, 0x30210000, 0x50100000, 0x521F0000] : List CommandWord).all
        (fun cw => decide (decode cw = .error .reservedField)) = true ∧
      ([0x00000001, 0x00800000, 0x20000001, 0x14200000, 0x30200001, 0x3020FFFF, 0x40400000, 0x40800001, 0x41800000,
          0x41200000, 0x50800000, 0x02400006, 0x52400000, 0x52A00000, 0x42000010] : List CommandWord).all
        (fun cw => decide (decode cw = .error .unusedField)) = true := by decide +kernel

/-- The `match` and `mask` columns of R75 agree with its `op` and `format` columns and R72. -/
theorem test_opcodeTable_columns :
    opcodeTable.all (fun row => decide (row.pattern = BitVec.ofNat 32 (row.op * 2 ^ 24)) &&
      decide (row.mask = formatMask row.format)) = true := by decide +kernel

/-- The examples of R80 as the encoder writes them. -/
theorem test_encode_examples :
    encode (.add .A .A .B) = 0x30200000 ∧ encode (.rotl .B .A .B) = 0x33A00000 ∧ encode (.wld .B) = 0x40800000 ∧
      encode (.wst .B) = 0x41400000 ∧ encode (.smv .B 1) = 0x52800001 ∧ encode (.srd 25) = 0x50000019 := by decide

/-- The examples of R80 as text. -/
theorem test_assembly_text :
    assemblyText (.add .A .A .B) [] = "ADD A, A, B" ∧
      assemblyText (.wld .B) [0x78, 0x56, 0x34, 0x12] = "WLD B <78563412>" ∧
      assemblyText (.smv .B 1) [] = "SMV B, 1" ∧ assemblyText .keyld [] = "KEYLD <>" ∧
      assemblyText (.crd 0) [] = "CRD STATUS" := by decide +kernel

/-- The examples of R80, and one pseudo-instruction of R81, read from text; an index of 17 bits is refused. -/
theorem test_read_line :
    readLine "ROTL B, A, B" = some [(.rotl .B .A .B, [])] ∧
      readLine "WLD B <78563412>   ; a word" = some [(.wld .B, [0x78, 0x56, 0x34, 0x12])] ∧
      readLine "SRD 0xFFFF" = some [(.srd 65535, [])] ∧ readLine "SRD 65536" = none ∧
      readLine "CRD CFG_Q" = some [(.crd 6, [])] ∧ readLine "KEYLD <>" = some [(.keyld, [])] ∧
      readLine "MOV A, B" = some [(.xor .A .A .A, []), (.add .A .A .B, [])] := by decide +kernel

/-- What the host asks of one word: it is decoded, and the very next step runs it (log entry 8). -/
theorem test_withFetchWord :
    decodeTableWord 32 0x10000000 = some .keyld ∧
      after (State.reset.withFetchWord 32 0x10000000) (fun t => t.KL && decide (t.inputs = [])) = true := by
  decide +kernel

/-! ## Constants and sizes -/

/-- Every row of R141 is the first `w` bits of the expansion with bit 0 set, and is odd. -/
theorem test_magicTable :
    Config.magicTable.all (fun row =>
      decide ((Config.oddPrefix Config.fractionOfE row.1).toNat = row.2.1 ∧ row.2.1 % 2 = 1) &&
        decide ((Config.oddPrefix Config.fractionOfPhi row.1).toNat = row.2.2 ∧ row.2.2 % 2 = 1)) = true := by
  decide +kernel

/-- Derived sizes `u`, `c`, `t`, `n_mix` (R6; 95_test_vectors.md section 4.1). -/
theorem test_sizes :
    (Config.rc5_32_12_16.u = 4 ∧ Config.rc5_32_12_16.c = 4 ∧ Config.rc5_32_12_16.t = 26 ∧
        Config.rc5_32_12_16.nMix = 78) ∧
      (Config.rc5_24_4_0.u = 3 ∧ Config.rc5_24_4_0.c = 1 ∧ Config.rc5_24_4_0.t = 10) ∧
      (Config.rc5_8_0_5.c = 5 ∧ Config.rc5_8_0_5.t = 2 ∧ Config.rc5_8_0_5.nMix = 15) := by decide

/-! ## One step, one command -/

/-- R190: NOP leaves the state as it was. -/
theorem test_nop : after (board .rc5_8_1_1 0xAA 0x55 (tx 0x00000000 []))
    (fun t => answered t 0x00 [] && decide (t.regNat .A = 0xAA ∧ t.regNat .B = 0x55 ∧ t.statusWord = 0)) = true := by
  decide +kernel

/-- R191: SRST after an ENC that faulted. -/
theorem test_srst : after (halted .rc5_8_1_1 (tx 0x01000000 []))
    (fun t => answered t 0x00 [] && decide (t.statusWord = 0 ∧ t.FCW = 0)) = true := by decide +kernel

/-- R192: `CRD 0` returns `<15000000>` after a completed EXPAND of RC5-24/4/0. -/
theorem test_crd_status : after (scheduled .rc5_24_4_0 [] 0 0 (tx 0x02000000 []))
    (fun t => answered t 0x00 [0x15, 0, 0, 0]) = true := by decide +kernel

/-- R192: `CRD 5` returns `<51e1b7>` there. -/
theorem test_crd_cfgP : after (board .rc5_24_4_0 0 0 (tx 0x02000005 []))
    (fun t => answered t 0x00 [0x51, 0xe1, 0xb7]) = true := by decide +kernel

/-- R142: `KEYLD` of 16 bytes. -/
theorem test_keyld : after (board .rc5_32_12_16 0 0 (tx 0x10000000 key2))
    (fun t => answered t 0x00 [] && t.KL && decide (t.keyBytes = key2.map (BitVec.ofNat 8))) = true := by decide +kernel

/-- R219: KEYLD with 15 bytes gives `0x08`, STATUS = `0x00000820`. -/
theorem test_keyld_short : after (board .rc5_32_12_16 0 0 (tx 0x10000000 (List.replicate 15 0)))
    (fun t => answered t 0x08 [] && decide (t.statusWord = 0x00000820)) = true := by decide +kernel

/-- R144: the L-table of the key of R142. -/
theorem test_linit : after (keyed .rc5_32_12_16 key2 (tx 0x11000000 []))
    (fun t => decide (t.lWords = [0x19465F91, 0x51B241BE, 0x01A55563, 0x91CEA910] ∧ t.LST = .init)) = true := by
  decide +kernel

/-- R213: LINIT straight after reset. -/
theorem test_linit_no_key : after (board .rc5_32_12_16 0 0 (tx 0x11000000 []))
    (fun t => answered t 0x02 [] && decide (t.statusWord = 0x00000220)) = true := by decide +kernel

/-- R146: the first and the last S entry. -/
theorem test_sinit : after (board .rc5_32_12_16 0 0 (tx 0x12000000 []))
    (fun t => decide (t.sWords.take 3 = [0xB7E15163, 0x5618CB1C, 0xF45044D5] ∧ t.sWords.getD 25 0 = 0x2B4C3474)) =
      true := by decide +kernel

/-- R148: the pass of RC5-8/1/1 with KEY = `<5a>`. -/
theorem test_mix : after (initialised .rc5_8_1_1 [0x5a] (tx 0x13000000 []))
    (fun t => decide (t.sWords = [0xF3, 0x64, 0x6B, 0x31] ∧ t.lWords = [0xFE])) = true := by decide +kernel

/-- R214: MIX with SINIT missing. -/
theorem test_mix_out_of_sequence :
    after { keyed .rc5_32_12_16 zeroKey (tx 0x13000000 []) with LST := .init }
      (fun t => answered t 0x03 [] && decide (t.statusWord = 0x00000323)) = true := by decide +kernel

/-- R149: the schedule of the all-zero key. -/
theorem test_expand : after (keyed .rc5_32_12_16 zeroKey (tx 0x14000000 []))
    (fun t => decide (t.sWords.take 2 = [0x9BBBD8C8, 0x1A37F7FB] ∧ t.sWords.getD 25 0 = 0x65046380 ∧
      t.lWords = [0x47A1A366, 0xB1004852, 0x022CF6CF, 0x58525ACF] ∧ t.statusWord = 0x00000015)) = true := by
  decide +kernel

/-- R173 and the source's first vector (95_test_vectors.md section 5.1, E1). -/
theorem test_enc : after (scheduled .rc5_32_12_16 zeroKey 0 0 (tx 0x20000000 []))
    (fun t => decide (t.regNat .A = 0xEEDBA521 ∧ t.regNat .B = 0x6D8F4B15)) = true := by decide +kernel

/-- R215: ENC straight after reset. -/
theorem test_enc_not_ready : after (board .rc5_32_12_16 0 0 (tx 0x20000000 []))
    (fun t => answered t 0x04 [] && decide (t.statusWord = 0x00000420 ∧ t.FCW = 0x20000000)) = true := by
  decide +kernel

/-- R174 and the source's second vector read backwards (E2). -/
theorem test_dec : after (scheduled .rc5_32_12_16 key2 0xAC13C0F7 0x52892B5B (tx 0x21000000 []))
    (fun t => decide (t.regNat .A = 0xEEDBA521 ∧ t.regNat .B = 0x6D8F4B15)) = true := by decide +kernel

/-- R107, `w = 8`. -/
theorem test_add_wraps : after (board .rc5_8_1_1 0xFF 0x01 (tx 0x30200000 []))
    (fun t => decide (t.regNat .A = 0x00 ∧ t.regNat .B = 0x01)) = true := by decide +kernel

/-- R108, `w = 8`. -/
theorem test_sub_wraps : after (board .rc5_8_1_1 0x00 0x01 (tx 0x31200000 []))
    (fun t => decide (t.regNat .A = 0xFF ∧ t.regNat .B = 0x01)) = true := by decide +kernel

/-- R109, `w = 8`. -/
theorem test_xor : after (board .rc5_8_1_1 0xAA 0x55 (tx 0x32200000 []))
    (fun t => decide (t.regNat .A = 0xFF ∧ t.regNat .B = 0x55)) = true := by decide +kernel

/-- R110, `w = 8`. -/
theorem test_rotl : after (board .rc5_8_1_1 0x81 0x09 (tx 0x33200000 []))
    (fun t => decide (t.regNat .A = 0x03)) = true := by decide +kernel

/-- R110, `w = 24`: the amount is reduced mod 24, not to its low five bits. -/
theorem test_rotl_24 : after (board .rc5_24_4_0 0x000001 0xFFFFFF (tx 0x33200000 []))
    (fun t => decide (t.regNat .A = 0x008000)) = true := by decide +kernel

/-- R111, `w = 8`. -/
theorem test_rotr : after (board .rc5_8_1_1 0x81 0x01 (tx 0x34200000 []))
    (fun t => decide (t.regNat .A = 0xC0)) = true := by decide +kernel

/-- R123, `w = 32`. -/
theorem test_wld : after (board .rc5_32_12_16 0 0 (tx 0x40000000 [0x78, 0x56, 0x34, 0x12]))
    (fun t => decide (t.regNat .A = 0x12345678 ∧ t.regNat .B = 0)) = true := by decide +kernel

/-- R123, `w = 12`: the top four bits of the last byte are dropped. -/
theorem test_wld_12 : after (board .rc5_12_2_3 0 0 (tx 0x40000000 [0x34, 0xf2]))
    (fun t => decide (t.regNat .A = 0x234)) = true := by decide +kernel

/-- R124, `w = 12`. -/
theorem test_wst_12 : after (board .rc5_12_2_3 0x234 0 (tx 0x41000000 []))
    (fun t => answered t 0x00 [0x34, 0x02]) = true := by decide +kernel

/-- R125. -/
theorem test_blkld :
    after (board .rc5_32_12_16 0 0 (tx 0x42000000 [0x21, 0xa5, 0xdb, 0xee, 0x15, 0x4b, 0x8f, 0x6d]))
      (fun t => decide (t.regNat .A = 0xEEDBA521 ∧ t.regNat .B = 0x6D8F4B15)) = true := by decide +kernel

/-- R126. -/
theorem test_blkst : after (board .rc5_32_12_16 0xAC13C0F7 0x52892B5B (tx 0x43000000 []))
    (fun t => answered t 0x00 [0xf7, 0xc0, 0x13, 0xac, 0x5b, 0x2b, 0x89, 0x52]) = true := by decide +kernel

/-- R193: after SINIT, `SRD 1` returns `<1ccb1856>`. -/
theorem test_srd : after (initialised .rc5_32_12_16 zeroKey (tx 0x50000001 []))
    (fun t => answered t 0x00 [0x1c, 0xcb, 0x18, 0x56]) = true := by decide +kernel

/-- R216: after EXPAND, `SRD 26` gives `0x05`, STATUS = `0x00000535`. -/
theorem test_srd_out_of_range : after (scheduled .rc5_32_12_16 zeroKey 0 0 (tx 0x5000001A []))
    (fun t => answered t 0x05 [] && decide (t.statusWord = 0x00000535)) = true := by decide +kernel

/-- R194: after EXPAND with the all-zero key, `LRD 3` returns `<cf5a5258>`. -/
theorem test_lrd : after (scheduled .rc5_32_12_16 zeroKey 0 0 (tx 0x51000003 []))
    (fun t => answered t 0x00 [0xcf, 0x5a, 0x52, 0x58]) = true := by decide +kernel

/-- R195: RC5-16/0/2, KEY = `<0102>`, `SMV B, 0` leaves B = `0x48AC`. -/
theorem test_smv : after (scheduled .rc5_16_0_2 [0x01, 0x02] 0 0 (tx 0x52800000 []))
    (fun t => decide (t.regNat .B = 0x48AC ∧ t.regNat .A = 0)) = true := by decide +kernel

/-- R212: an unassigned opcode gives `0x01`, STATUS = `0x00000120`, FCW = the word. -/
theorem test_illegal_word : after (board .rc5_32_12_16 0 0 (tx 0x7F000000 [1, 2, 3]))
    (fun t => answered t 0x01 [] && decide (t.statusWord = 0x00000120 ∧ t.FCW = 0x7F000000)) = true := by
  decide +kernel

/-- R222: a halted engine refuses EXPAND and keeps STATUS. -/
theorem test_halted_refuses : after (halted .rc5_32_12_16 (tx 0x14000000 []))
    (fun t => answered t 0x80 [] && decide (t.statusWord = 0x00000420)) = true := by decide +kernel

/-- Hardware reset leaves the halted state and gives no answer (R223, R240). -/
theorem test_hardware_reset : after (halted .rc5_8_1_1 .hardwareReset)
    (fun t => decide (t.responses = [] ∧ t.statusWord = 0 ∧ t.inputs = [])) = true := by decide +kernel

/-! ## Witnesses: states and operands that meet the hypotheses of the statements

`witness_<Name>` is about `Obligations.<Name>`, one part for each clause, at a boundary value where the clause has a
range. A statement without hypotheses has none. -/

/-- An instance of 8-bit words whose host presents a command that its state allows. -/
abbrev calm (event : HostEvent) : State := board .rc5_8_1_1 0xFF 0x01 event

theorem witness_DecodeOfEncode : (Instr.crd 65535).WellFormed ∧ (Instr.smv .B 65535).WellFormed := by decide

theorem witness_EncodeOfDecode : decode 0x5280FFFF = .ok (.smv .B 65535) ∧ decode 0x00000000 = .ok .nop := by decide

theorem witness_DecodeSelectsTheOneRow :
    (∃ row ∈ opcodeTable, (0x02000006 : CommandWord) &&& row.mask = row.pattern) ∧
      (∀ row ∈ opcodeTable, (0x7F000000 : CommandWord) &&& row.mask ≠ row.pattern) := by decide

theorem witness_LegalWordsByFields :
    (∃ i, decode 0x521F0000 = .ok i) = False ∧ decode 0x0200FFFF = .ok (.crd 65535) ∧ decode 0 = .ok .nop ∧
      (calm (tx 0x521F0000 [])).inputs = [.transaction 0x521F0000 []] ∧
      (calm (tx 0x521F0000 [])).FAULT = false := by
  refine ⟨eq_false ?_, by decide, by decide, rfl, rfl⟩
  rintro ⟨i, hi⟩
  have h : decode 0x521F0000 = .error .reservedField := by decide
  rw [h] at hi
  cases hi

theorem witness_StepRunsTheDecodedCommand :
    (calm (tx 0x30200000 [])).inputs = [.transaction 0x30200000 []] ∧ decode 0x30200000 = .ok (.add .A .A .B) :=
  ⟨rfl, by decide⟩

theorem witness_EngineIdlesWithoutEvents : State.reset.inputs = [] := rfl

/-- One transaction that executes, one that faults, one that is refused. -/
theorem witness_OneResponseWithALegalCode :
    ((calm (tx 0x30200000 [])).inputs = [.transaction 0x30200000 []] ∧
        after (calm (tx 0x30200000 [])) (fun t => answered t 0x00 []) = true) ∧
      after (calm (tx 0x30200000 [0])) (fun t => answered t 0x08 []) = true ∧
      after (halted .rc5_8_1_1 (tx 0x30200000 [])) (fun t => answered t 0x80 []) = true := by decide +kernel

/-- Words for each of the six ends of R83: refused, illegal, wrong length, precondition, index, executed. -/
theorem witness_StepFollowsTheListedOrderOfChecks :
    (halted .rc5_8_1_1 (tx 0x02000007 [])).inputs = [.transaction 0x02000007 []] ∧
      (calm (tx 0x20000001 [])).inputs = [.transaction 0x20000001 []] ∧
      (calm (tx 0x500003E7 [0])).inputs = [.transaction 0x500003E7 [0]] ∧
      (calm (tx 0x500003E7 [])).inputs = [.transaction 0x500003E7 []] ∧
      (initialised .rc5_8_1_1 [0x5a] (tx 0x50000004 [])).inputs = [.transaction 0x50000004 []] ∧
      (initialised .rc5_8_1_1 [0x5a] (tx 0x50000003 [])).inputs = [.transaction 0x50000003 []] :=
  ⟨rfl, rfl, rfl, rfl, rfl, rfl⟩

theorem witness_ResetStatesHaveTheListedValues :
    (halted .rc5_8_1_1 (tx 0x01000000 [])).payload = [] ∧
      (halted .rc5_8_1_1 .hardwareReset).inputs = [.hardwareReset] := ⟨rfl, rfl⟩

theorem witness_FaultEntryChangesNothingElse :
    (calm (tx 0x20000000 [])).FAULT = false ∧ after (calm (tx 0x20000000 [])) (fun t => t.FAULT) = true := by
  decide +kernel

/-- The three commands a halted engine runs, at the largest register number, and one number more. -/
theorem witness_HaltedEngineRunsThreeCommandsOnly :
    (halted .rc5_8_1_1 (tx 0x00000000 [])).FAULT = true ∧
      (halted .rc5_8_1_1 (tx 0x00000000 [])).inputs = [.transaction 0x00000000 []] ∧ decode 0x00000000 = .ok .nop ∧
      decode 0x01000000 = .ok .srst ∧ decode 0x02000006 = .ok (.crd 6) ∧ (6 : Nat) ≤ 6 ∧
      decode 0x02000007 = .ok (.crd 7) ∧ decode 0x521F0000 = .error .reservedField := by
  refine ⟨rfl, rfl, ?_⟩
  decide

/-- A halted engine that stays halted, and one that is reset either way. -/
theorem witness_FirstFaultIsKept :
    (halted .rc5_8_1_1 (tx 0x7F000000 [])).FAULT = true ∧
      after (halted .rc5_8_1_1 (tx 0x7F000000 [])) (fun t => t.FAULT) = true ∧
      after (halted .rc5_8_1_1 (tx 0x01000000 [])) (fun t => !t.FAULT) = true ∧
      after (halted .rc5_8_1_1 .hardwareReset) (fun t => !t.FAULT) = true := by decide +kernel

/-- One byte too few for KEYLD, one too many for WLD, BLKLD and NOP; and a command of the last clause. -/
theorem witness_WrongPayloadLengthFaults :
    (board .rc5_32_12_16 0 0 (tx 0x10000000 (List.replicate 15 0))).payload.length ≠ nIn .rc5_32_12_16 .keyld ∧
      (calm (tx 0x40000000 [0, 0])).payload.length ≠ nIn .rc5_8_1_1 (.wld .A) ∧
      (calm (tx 0x42000000 [0, 0, 0])).payload.length ≠ nIn .rc5_8_1_1 .blkld ∧
      (calm (tx 0x00000000 [0])).payload.length ≠ nIn .rc5_8_1_1 .nop ∧ (calm (tx 0x00000000 [0])).FAULT = false ∧
      (Instr.nop ≠ .keyld ∧ (∀ rd, Instr.nop ≠ .wld rd) ∧ Instr.nop ≠ .blkld) := by
  refine ⟨by decide, by decide, by decide, by decide, rfl, by decide, ?_, by decide⟩
  intro rd h
  cases h

/-- A zero-length key among them. -/
theorem witness_KeyNotLoadedFaults :
    ((calm (tx 0x11000000 [])).inputs = [.transaction 0x11000000 []] ∧ (calm (tx 0x11000000 [])).FAULT = false ∧
        (calm (tx 0x11000000 [])).KL = false) ∧
      (board .rc5_24_4_0 0 0 (tx 0x14000000 [])).inputs = [.transaction 0x14000000 []] ∧
      (board .rc5_24_4_0 0 0 (tx 0x14000000 [])).KL = false := ⟨⟨rfl, rfl, rfl⟩, rfl, rfl⟩

/-- LST alone INIT; and both MIXED, the second MIX. -/
theorem witness_MixOutOfSequenceFaults :
    ((keyed .rc5_8_1_1 [0] (tx 0x13000000 [])).inputs = [.transaction 0x13000000 []] ∧
        (keyed .rc5_8_1_1 [0] (tx 0x13000000 [])).FAULT = false ∧
        ¬ ((keyed .rc5_8_1_1 [0] (tx 0x13000000 [])).LST = .init ∧
          (keyed .rc5_8_1_1 [0] (tx 0x13000000 [])).SST = .init)) ∧
      ¬ ((scheduled .rc5_8_1_1 [0] 0 0 (tx 0x13000000 [])).LST = .init ∧
        (scheduled .rc5_8_1_1 [0] 0 0 (tx 0x13000000 [])).SST = .init) := by
  refine ⟨⟨rfl, rfl, ?_⟩, ?_⟩ <;> decide

/-- ENC with SST = INIT; SRD, SMV and LRD with both tables EMPTY. -/
theorem witness_UnreadyTableFaults :
    ((initialised .rc5_8_1_1 [0] (tx 0x20000000 [])).inputs = [.transaction 0x20000000 []] ∧
        decode 0x20000000 = .ok .enc ∧ (initialised .rc5_8_1_1 [0] (tx 0x20000000 [])).FAULT = false ∧
        (initialised .rc5_8_1_1 [0] (tx 0x20000000 [])).SST ≠ .mixed) ∧
      (decode 0x50000000 = .ok (.srd 0) ∧ (calm (tx 0x50000000 [])).SST = .empty) ∧
      (decode 0x5280FFFF = .ok (.smv .B 65535) ∧ (calm (tx 0x5280FFFF [])).SST = .empty) ∧
      (decode 0x5100FFFF = .ok (.lrd 65535) ∧ (calm (tx 0x5100FFFF [])).LST = .empty) := by
  refine ⟨⟨rfl, by decide, rfl, by decide⟩, ⟨by decide, rfl⟩, ⟨by decide, rfl⟩, by decide, rfl⟩

/-- The first index past the end: `t = 4` and `c = 1` for RC5-8/1/1, register number 7. -/
theorem witness_IndexOutOfRangeFaults :
    ((initialised .rc5_8_1_1 [0] (tx 0x50000004 [])).inputs = [.transaction 0x50000004 []] ∧
        decode 0x50000004 = .ok (.srd 4) ∧ (initialised .rc5_8_1_1 [0] (tx 0x50000004 [])).FAULT = false ∧
        (initialised .rc5_8_1_1 [0] (tx 0x50000004 [])).SST ≠ .empty ∧ 2 * (Config.rc5_8_1_1.r + 1) ≤ 4) ∧
      decode 0x52000004 = .ok (.smv .A 4) ∧
      (decode 0x51000001 = .ok (.lrd 1) ∧ (initialised .rc5_8_1_1 [0] (tx 0x51000001 [])).LST ≠ .empty ∧
        max ((Config.rc5_8_1_1.b * 8 + Config.rc5_8_1_1.w - 1) / Config.rc5_8_1_1.w) 1 ≤ 1) ∧
      (decode 0x02000007 = .ok (.crd 7) ∧ (6 : Nat) < 7) := by
  refine ⟨⟨rfl, by decide, rfl, by decide, by decide⟩, by decide, ⟨by decide, by decide, by decide⟩, by decide,
    by decide⟩

/-- An engine that is not halted and one that is, each with an empty payload and with one byte: the hypotheses on
state and payload of NopDoesNothing, SrstResetsTheEngine, CrdReturnsTheRegister, TableEntriesAreReturned,
AddSubXorCommands, RotateCommands, WordLoadAndStoreCommands, BlockLoadAndStoreCommands, KeyldLoadsTheKey,
LinitCommand, SinitCommand, MixCommand, ExpandCommand and EncAndDecCommands where a command is refused, faults on its
payload, or has none of the preconditions below. -/
theorem witness_payload_and_halted :
    ((calm (tx 0 [])).FAULT = false ∧ (calm (tx 0 [])).payload = []) ∧
      ((calm (tx 0 [0])).FAULT = false ∧ (calm (tx 0 [0])).payload ≠ [] ∧
        (calm (tx 0 [0, 0])).payload.length ≠ (calm (tx 0 [0, 0])).cfg.u ∧
        (calm (tx 0 [0])).payload.length ≠ 2 * (calm (tx 0 [0])).cfg.u ∧
        (calm (tx 0 [])).payload.length ≠ (calm (tx 0 [])).cfg.b) ∧
      ((halted .rc5_8_1_1 (tx 0 [])).FAULT = true ∧ (halted .rc5_8_1_1 (tx 0 [])).payload = []) ∧
      ((halted .rc5_8_1_1 (tx 0 [0])).FAULT = true ∧ (halted .rc5_8_1_1 (tx 0 [0])).payload ≠ []) := by decide

theorem witness_NopDoesNothing :
    (halted .rc5_8_1_1 (tx 0 [])).payload = [] ∧ (calm (tx 0 [0])).payload ≠ [] ∧ (calm (tx 0 [0])).FAULT = false ∧
      (halted .rc5_8_1_1 (tx 0 [0])).payload ≠ [] ∧ (halted .rc5_8_1_1 (tx 0 [0])).FAULT = true := by decide

theorem witness_SrstResetsTheEngine :
    after (halted .rc5_8_1_1 (tx 0x01000000 [])) (fun t => !t.FAULT) = true := by decide +kernel

/-- The last register, the first number that names none, the largest index. -/
theorem witness_CrdReturnsTheRegister :
    (65535 : Nat) < 2 ^ 16 ∧ (6 : Nat) < 7 ∧ (calm (tx 0x02000007 [])).FAULT = false ∧
      (calm (tx 0x02000007 [])).payload = [] := by decide

/-- The last entry and the first index past it, of each table, in states INIT and MIXED; and both tables EMPTY. -/
theorem witness_TableEntriesAreReturned :
    (65535 : Nat) < 2 ^ 16 ∧ (3 < Config.rc5_8_1_1.t ∧ Config.rc5_8_1_1.t ≤ 4) ∧
      (0 < Config.rc5_8_1_1.c ∧ Config.rc5_8_1_1.c ≤ 1) ∧
      ((initialised .rc5_8_1_1 [0] (tx 0x50000003 [])).FAULT = false ∧
        (initialised .rc5_8_1_1 [0] (tx 0x50000003 [])).payload = [] ∧
        (initialised .rc5_8_1_1 [0] (tx 0x50000003 [])).SST ≠ .empty ∧
        (initialised .rc5_8_1_1 [0] (tx 0x50000003 [])).LST ≠ .empty) ∧
      (scheduled .rc5_8_1_1 [0] 0 0 (tx 0x52800003 [])).SST ≠ .empty ∧
      ((calm (tx 0x50000003 [])).SST = .empty ∧ (calm (tx 0x51000000 [])).LST = .empty) := by
  refine ⟨by decide, by decide, by decide, ⟨rfl, rfl, by decide, by decide⟩, by decide, rfl, rfl⟩

/-- Both branches of the difference, the boundary of equal operands, and the top bit. -/
theorem witness_AddSubXorOnWords :
    (0xFF#8).toNat ≤ (0xFF#8).toNat ∧ (0x00#8).toNat < (0x01#8).toNat ∧ (7 : Nat) < 8 := by decide

theorem witness_RotatesMoveBits : (0 : Nat) < 1 ∧ (23 : Nat) < 24 := by decide

theorem witness_LawsOfTheWordUnit : (0 : Nat) < 1 ∧ (0 : Nat) < 24 := by decide

theorem witness_AddSubXorCommands :
    ∃ i : Instr, i = .add .A .A .B ∧ (calm (tx 0x30200000 [])).FAULT = false ∧ (calm (tx 0x30200000 [])).payload = [] :=
  ⟨_, rfl, rfl, rfl⟩

theorem witness_RotateCommands :
    ∃ i : Instr, i = .rotr .B .B .B ∧ (calm (tx 0x34E00000 [])).FAULT = false ∧ (calm (tx 0x34E00000 [])).payload = [] :=
  ⟨_, rfl, rfl, rfl⟩

theorem witness_CodecFunctions :
    ([0x34, 0xf2] : List Byte).length = (12 + 7) / 8 ∧ (1 : Nat) < (12 + 7) / 8 := by decide

/-- A width that fills its last byte and one that does not; two strings that differ in the unused bits. -/
theorem witness_CodecRoundTrip :
    (0 : Nat) < 12 ∧ ([0x34, 0xf2] : List Byte).length = (12 + 7) / 8 ∧ ([0x34] : List Byte).length + 1 = (12 + 7) / 8 ∧
      (0xF2#8).toNat % 2 ^ (12 - 8 * 1) = (0x02#8).toNat % 2 ^ (12 - 8 * 1) ∧ (0xF2#8) ≠ 0x02#8 ∧
      ([] : List Byte).length + 1 = (8 + 7) / 8 := by decide

theorem witness_WordLoadAndStoreCommands :
    (calm (tx 0x40000000 [0xFF])).FAULT = false ∧
      (calm (tx 0x40000000 [0xFF])).payload.length = (calm (tx 0x40000000 [0xFF])).cfg.u := by decide

theorem witness_BlockLoadAndStoreCommands :
    (calm (tx 0x42000000 [0x12, 0x34])).FAULT = false ∧
      ([0x12] : List Byte).length = (calm (tx 0x42000000 [0x12, 0x34])).cfg.u ∧
      ([0x34] : List Byte).length = (calm (tx 0x42000000 [0x12, 0x34])).cfg.u ∧
      (calm (tx 0x42000000 [0x12, 0x34])).payload = [0x12] ++ [0x34] := by decide

/-- A key of one byte, and the zero-length key. -/
theorem witness_KeyldLoadsTheKey :
    ((calm (tx 0x10000000 [0x5a])).FAULT = false ∧ (calm (tx 0x10000000 [0x5a])).payload.length = Config.rc5_8_1_1.b ∧
        0 < Config.rc5_8_1_1.b) ∧
      (board .rc5_24_4_0 0 0 (tx 0x10000000 [])).payload.length = Config.rc5_24_4_0.b := by decide

/-- The last entry and the top bit; an entry past the last chunk (none exists for these instances but with a
zero-length key); a zero-length key; a width that is a multiple of 8. -/
theorem witness_LinitPacksTheKeyByChunks :
    (3 < Config.rc5_32_12_16.c ∧ 31 < Config.rc5_32_12_16.w) ∧
      (0 < Config.rc5_24_4_0.c ∧ (Config.rc5_24_4_0.b + Config.rc5_24_4_0.u - 1) / Config.rc5_24_4_0.u ≤ 0) ∧
      Config.rc5_24_4_0.b = 0 ∧ Config.rc5_24_4_0.w % 8 = 0 := by decide

theorem witness_SinitClosedForm : 25 < Config.rc5_32_12_16.t ∧ 0 < 25 ∧ 0 < Config.rc5_32_12_16.t := by decide

/-- Either table the longer one, at its last entry; the iteration counts have no hypothesis. -/
theorem witness_MixTouchesEveryEntryThreeTimes :
    (3 < Config.rc5_8_1_1.t ∧ Config.rc5_8_1_1.t = max Config.rc5_8_1_1.t Config.rc5_8_1_1.c) ∧
      (4 < Config.rc5_8_0_5.c ∧ Config.rc5_8_0_5.c = max Config.rc5_8_0_5.t Config.rc5_8_0_5.c) ∧
      0 < Config.rc5_8_1_1.c := by decide

theorem witness_LinitCommand :
    ((keyed .rc5_8_1_1 [0x5a] (tx 0x11000000 [])).FAULT = false ∧
        (keyed .rc5_8_1_1 [0x5a] (tx 0x11000000 [])).payload = [] ∧
        (keyed .rc5_8_1_1 [0x5a] (tx 0x11000000 [])).KL = true) ∧ (calm (tx 0x11000000 [])).KL = false :=
  ⟨⟨rfl, rfl, rfl⟩, rfl⟩

/-- Without a key, and over a completed table. -/
theorem witness_SinitCommand :
    ((calm (tx 0x12000000 [])).FAULT = false ∧ (calm (tx 0x12000000 [])).payload = [] ∧
        (calm (tx 0x12000000 [])).KL = false) ∧
      ((scheduled .rc5_8_1_1 [0x5a] 0 0 (tx 0x12000000 [])).FAULT = false ∧
        (scheduled .rc5_8_1_1 [0x5a] 0 0 (tx 0x12000000 [])).payload = []) := ⟨⟨rfl, rfl, rfl⟩, rfl, rfl⟩

theorem witness_MixCommand :
    ((initialised .rc5_8_1_1 [0x5a] (tx 0x13000000 [])).FAULT = false ∧
        (initialised .rc5_8_1_1 [0x5a] (tx 0x13000000 [])).payload = [] ∧
        (initialised .rc5_8_1_1 [0x5a] (tx 0x13000000 [])).LST = .init ∧
        (initialised .rc5_8_1_1 [0x5a] (tx 0x13000000 [])).SST = .init) ∧
      ¬ ((calm (tx 0x13000000 [])).LST = .init ∧ (calm (tx 0x13000000 [])).SST = .init) := by
  refine ⟨⟨rfl, rfl, rfl, rfl⟩, by decide⟩

theorem witness_ExpandCommand :
    ((keyed .rc5_8_1_1 [0x5a] (tx 0x14000000 [])).FAULT = false ∧
        (keyed .rc5_8_1_1 [0x5a] (tx 0x14000000 [])).payload = [] ∧
        (keyed .rc5_8_1_1 [0x5a] (tx 0x14000000 [])).KL = true) ∧ (calm (tx 0x14000000 [])).KL = false :=
  ⟨⟨rfl, rfl, rfl⟩, rfl⟩

theorem witness_ExpandEqualsTheThreePhases :
    (keyed .rc5_8_1_1 [0x5a] .hardwareReset).FAULT = false ∧ (keyed .rc5_8_1_1 [0x5a] .hardwareReset).KL = true :=
  ⟨rfl, rfl⟩

theorem witness_ZeroRoundsAddTheTwoWords : Config.rc5_16_0_2.r = 0 := rfl

/-- A completed schedule; a table in state INIT. -/
theorem witness_EncAndDecCommands :
    ((scheduled .rc5_8_1_1 [0x5a] 0 0 (tx 0x20000000 [])).FAULT = false ∧
        (scheduled .rc5_8_1_1 [0x5a] 0 0 (tx 0x20000000 [])).payload = [] ∧
        (scheduled .rc5_8_1_1 [0x5a] 0 0 (tx 0x20000000 [])).SST = .mixed) ∧
      (initialised .rc5_8_1_1 [0x5a] (tx 0x21000000 [])).SST ≠ .mixed := by
  refine ⟨⟨rfl, rfl, rfl⟩, by decide⟩

theorem witness_DecUndoesEncOnTheMachine :
    (scheduled .rc5_8_1_1 [0x5a] 1 2 .hardwareReset).FAULT = false ∧
      (scheduled .rc5_8_1_1 [0x5a] 1 2 .hardwareReset).SST = .mixed := ⟨rfl, rfl⟩

theorem witness_ClrAndMovPseudoInstructions : (calm .hardwareReset).FAULT = false ∧ Reg.A ≠ Reg.B := by decide

/-- A one-byte key, a zero-length key, a block of two bytes. -/
theorem witness_KeyAndBlockPseudoInstructions :
    ((calm .hardwareReset).FAULT = false ∧ ([0x5a] : List Byte).length = (calm .hardwareReset).cfg.b ∧
        ([] : List Byte).length = Config.rc5_24_4_0.b) ∧
      ((scheduled .rc5_8_1_1 [0x5a] 1 2 .hardwareReset).FAULT = false ∧
        (scheduled .rc5_8_1_1 [0x5a] 1 2 .hardwareReset).SST = .mixed ∧
        ([0x12] : List Byte).length = Config.rc5_8_1_1.u) := ⟨by decide, rfl, rfl, by decide⟩

/-- A command that lies outside every list of writers but the registers', and one outside all of them. -/
theorem witness_OnlyTheListedCommandsWriteEachStore :
    (∃ t, exec (.add .A .A .B) (calm (tx 0x30200000 [])) = .next t) ∧ writesReg (.add .A .A .B) .B = false ∧
      ¬ WritesKey (.add .A .A .B) ∧ ¬ WritesL (.add .A .A .B) ∧ ¬ WritesS (.add .A .A .B) ∧
      writesReg .mix .A = false ∧ Instr.add .A .A .B ≠ .srst := by
  refine ⟨⟨_, rfl⟩, ?_⟩
  decide

/-- A step that changes the state of a table, by each of the commands that can, and hardware reset; then a command
refused, a command that faults, and a word that is no command. -/
theorem witness_TableStateTransitions :
    after (scheduled .rc5_8_1_1 [0] 0 0 (tx 0x01000000 [])) (fun t => decide (t.LST = .empty)) = true ∧
      after (keyed .rc5_8_1_1 [0] (tx 0x11000000 [])) (fun t => decide (t.LST = .init)) = true ∧
      after (keyed .rc5_8_1_1 [0] (tx 0x12000000 [])) (fun t => decide (t.SST = .init)) = true ∧
      after (initialised .rc5_8_1_1 [0] (tx 0x13000000 [])) (fun t => decide (t.SST = .mixed)) = true ∧
      after (keyed .rc5_8_1_1 [0] (tx 0x14000000 [])) (fun t => decide (t.SST = .mixed)) = true ∧
      (scheduled .rc5_8_1_1 [0] 0 0 .hardwareReset).inputs = [.hardwareReset] ∧
      after (halted .rc5_8_1_1 (tx 0x12000000 [])) (fun t => t.FAULT && decide (t.SST = .empty)) = true ∧
      after (calm (tx 0x11000000 [])) (fun t => t.FAULT && decide (t.LST = .empty)) = true ∧
      ((calm (tx 0x7F000000 [])).inputs = [.transaction 0x7F000000 []] ∧
        decode 0x7F000000 = .error .unassignedOp) := by decide +kernel

/-- A completed schedule under ENC, and under SINIT. -/
theorem witness_CompletedScheduleIsImmutable :
    (scheduled .rc5_8_1_1 [0] 0 0 (tx 0x20000000 [])).SST = .mixed ∧
      after (scheduled .rc5_8_1_1 [0] 0 0 (tx 0x20000000 [])) (fun t => decide (t.SST = .mixed)) = true ∧
      after (scheduled .rc5_8_1_1 [0] 0 0 (tx 0x12000000 [])) (fun t => decide (t.SST = .init)) = true := by
  decide +kernel

/-- A state past reset that meets the invariant, each of whose table clauses has something to say, and its step. -/
theorem witness_StepKeepsTheInvariant :
    (scheduled .rc5_8_1_1 [0] 0 0 (tx 0x11000000 [])).Inv ∧
      ∃ t, step (scheduled .rc5_8_1_1 [0] 0 0 (tx 0x11000000 [])) = .next t := by
  refine ⟨⟨by decide, by decide, by decide, by decide, by decide, ?_, ?_, ?_, ?_⟩, ⟨_, rfl⟩⟩
  · intro h; cases h
  · intro h; cases h
  · exact fun _ => ⟨_, rfl⟩
  · exact fun _ => ⟨_, rfl⟩

/-- Two different states related to each other: tables EMPTY, contents not the same. -/
theorem witness_UnwrittenStorageIsNeverObserved :
    let s := calm (tx 0x14000000 [])
    s.SameButUnwritten { s with S := sinit s.cfg } ∧ ({ s with S := sinit s.cfg } : State) ≠ s := by
  refine ⟨⟨_, _, _, rfl, fun _ => rfl, fun _ => rfl, fun h => absurd rfl h⟩, ?_⟩
  decide

end Sys2Proof.Tests
end

section
/-! The ends a command and a step can have, as inversion lemmas over `exec` and `step` (R82, R83), with one
constructor per end. Every rule about the whole machine is a case analysis over them. -/

namespace Sys2Proof.Machine

/-- The faults of R211 that some command raises: all but the two reserved ones (R217, R218). -/
def FaultCode.Raised (f : FaultCode) : Prop := f ≠ .boundViolation ∧ f ≠ .sizeMismatch

theorem FaultCode.code_ne_zero (f : FaultCode) : f.code ≠ 0 := by cases f <;> decide

theorem FaultCode.Raised.code_range {f : FaultCode} (h : f.Raised) : f.code.toNat ≤ 5 ∨ f.code.toNat = 8 := by
  obtain ⟨hb, hs⟩ := h
  cases f
  case boundViolation => exact absurd rfl hb
  case sizeMismatch => exact absurd rfl hs
  all_goals decide

theorem raised_of_bodyOf_error {i : Instr} {s : State} {f : FaultCode} (h : bodyOf i s = .error f) : f.Raised := by
  obtain ⟨rfl, -⟩ | ⟨rfl, -⟩ | ⟨rfl, -⟩ | ⟨rfl, -⟩ := bodyOf_error h <;> exact ⟨nofun, nofun⟩

/-- The commands a halted engine runs (R83 step 1, R222). -/
theorem runsWhenHalted_cases {i : Instr} (h : runsWhenHalted i = true) :
    i = .nop ∨ i = .srst ∨ ∃ idx ≤ 6, i = .crd idx := by
  cases i
  case nop => exact .inl rfl
  case srst => exact .inr (.inl rfl)
  case crd idx => exact .inr (.inr ⟨idx, of_decide_eq_true h, rfl⟩)
  all_goals cases h

/-- A command the halted engine runs takes an empty payload (R76). -/
theorem nIn_of_runsWhenHalted {i : Instr} (cfg : Config) (h : runsWhenHalted i = true) : nIn cfg i = 0 := by
  obtain rfl | rfl | ⟨idx, -, rfl⟩ := runsWhenHalted_cases h <;> rfl

/-- A command the halted engine runs raises no fault: its register exists (R222). -/
theorem bodyOf_ne_error_of_runsWhenHalted {i : Instr} {s : State} {f : FaultCode} (h : runsWhenHalted i = true) :
    bodyOf i s ≠ .error f := by
  obtain rfl | rfl | ⟨idx, hidx, rfl⟩ := runsWhenHalted_cases h
  · nofun
  · nofun
  · obtain ⟨reg, hreg⟩ := controlReg_of_le hidx
    simp [bodyOf, hreg, afterCheck]

/-- What a command that executes on a halted engine does (R222, R223). -/
theorem bodyOf_ok_of_runsWhenHalted {i : Instr} {s s' : State} {out : List Byte} (h : bodyOf i s = .ok (s', out))
    (hi : runsWhenHalted i = true) : s' = s ∨ (s' = s.resetEngine ∧ i = .srst) := by
  obtain rfl | rfl | ⟨idx, -, rfl⟩ := runsWhenHalted_cases hi
  · cases h; exact .inl rfl
  · cases h; exact .inr ⟨rfl, rfl⟩
  · obtain ⟨reg, -, hs⟩ := afterCheck_ok.mp h
    cases hs
    exact .inl rfl

/-- The three ends of a command (R82): refused by a halted engine, faulted, executed. -/
inductive CommandEnd (i : Instr) (s : State) : State → Prop
  | refused (halted : s.FAULT = true) : CommandEnd i s (s.respond rcRefused [])
  | faulted (f : FaultCode) (running : s.FAULT = false) (raised : f.Raised) :
      CommandEnd i s ((s.recordFault f).respond f.code [])
  | executed (s' : State) (out : List Byte) (runs : s.FAULT = true → runsWhenHalted i = true)
      (effect : bodyOf i s = .ok (s', out)) : CommandEnd i s (s'.respond rcOK out)

theorem commandEnd_of_exec {i : Instr} {s t : State} (h : exec i s = .next t) : CommandEnd i s t := by
  obtain ⟨hf, -, he⟩ | ⟨hr, hl, he⟩ | ⟨f, hr, -, hb, he⟩ | ⟨s', out, hr, -, hb, he⟩ := exec_cases i s <;>
    (rw [he] at h; cases h)
  case inl => exact .refused hf
  case inr.inl =>
    refine .faulted _ (Bool.eq_false_iff.mpr fun hf => hl ?_) ⟨nofun, nofun⟩
    obtain ⟨hi, hp⟩ := hr hf
    rw [nIn_of_runsWhenHalted _ hi, hp, List.length_nil]
  case inr.inr.inl =>
    exact .faulted f (Bool.eq_false_iff.mpr fun hf => bodyOf_ne_error_of_runsWhenHalted (hr hf).1 hb)
      (raised_of_bodyOf_error hb)
  case inr.inr.inr => exact .executed s' out (fun hf => (hr hf).1) hb

/-- The ends of a step: no event, hardware reset, or a transaction with its three ends, of which a word that is no
command can have the first two (R70, R212, R240). -/
inductive StepEnd (s : State) : State → Prop
  | idle (noEvent : s.inputs = []) : StepEnd s s
  | reset (rest : List HostEvent) (event : s.inputs = .hardwareReset :: rest) :
      StepEnd s { s.resetEngine with inputs := rest }
  | refused (halted : s.FAULT = true) : StepEnd s (s.respond rcRefused [])
  | faulted (f : FaultCode) (running : s.FAULT = false) (raised : f.Raised) :
      StepEnd s ((s.recordFault f).respond f.code [])
  | executed (i : Instr) (s' : State) (out : List Byte) (decoded : decode s.cw = .ok i)
      (runs : s.FAULT = true → runsWhenHalted i = true) (effect : bodyOf i s = .ok (s', out)) :
      StepEnd s (s'.respond rcOK out)

theorem stepEnd_of_step {s t : State} (h : step s = .next t) : StepEnd s t := by
  match hin : s.inputs with
  | [] => rw [step_of_no_event hin] at h; cases h; exact .idle hin
  | .hardwareReset :: rest => rw [step_of_hardwareReset hin] at h; cases h; exact .reset rest hin
  | .transaction cw inp :: rest =>
    cases hd : decode cw with
    | error e =>
      rw [step_of_illegal hin hd] at h
      obtain ⟨hf, he⟩ | ⟨hf, he⟩ := illegalCommand_cases s <;> rw [he] at h <;> cases h
      · exact .refused hf
      · exact .faulted _ hf ⟨nofun, nofun⟩
    | ok i =>
      rw [step_of_decoded hin hd] at h
      cases commandEnd_of_exec h with
      | refused hf => exact .refused hf
      | faulted f hf hr => exact .faulted f hf hr
      | executed s' out hr hb => exact .executed i s' out (by rw [State.cw_of_transaction hin, hd]) hr hb

end Sys2Proof.Machine
end

section
/-! The invariant of the fault record and the table states (R33, R38): each update of the state keeps it, so every
step does. -/

namespace Sys2Proof.Machine

variable {s : State}

theorem State.Inv.respond (h : s.Inv) (rc : BitVec 8) (out : List Byte) : (s.respond rc out).Inv := { h with }

theorem State.Inv.recordFault {f : FaultCode} (h : s.Inv) (hf : f.Raised) : (s.recordFault f).Inv :=
  { h with
    fcode_zero_iff := ⟨fun h0 => absurd h0 f.code_ne_zero, nofun⟩
    fcode_produced := hf.code_range
    fcw_zero := nofun }

/-- A state with the values of R36 meets the invariant, whatever the stores hold. -/
theorem State.HasResetValues.inv (h : s.HasResetValues) : s.Inv := by
  obtain ⟨-, -, -, hlst, hsst, hfault, hfcode, -, hfcw⟩ := h
  constructor <;> simp [hlst, hsst, hfault, hfcode, hfcw]

theorem State.hasResetValues_resetOf (cfg : Config) : (State.resetOf cfg).HasResetValues :=
  ⟨rfl, rfl, rfl, rfl, rfl, rfl, rfl, rfl, rfl⟩

theorem State.hasResetValues_resetEngine (s : State) : s.resetEngine.HasResetValues :=
  ⟨rfl, rfl, rfl, rfl, rfl, rfl, rfl, rfl, rfl⟩

/-- The values of R36 do not mention the host's events and the answers given. -/
theorem State.HasResetValues.withPort (h : s.HasResetValues) (inputs : List HostEvent) (responses : List Response) :
    ({ s with inputs := inputs, responses := responses } : State).HasResetValues := h

/-- The mixing pass on two initialised tables is a key schedule (R140, R147). -/
theorem State.Inv.mix_eq_schedule (h : s.Inv) (hl : s.LST = .init) (hs : s.SST = .init) :
    ∃ key, mix s.cfg s.L s.S = schedule s.cfg key := by
  obtain ⟨key, hkey⟩ := h.l_init hl
  exact ⟨key, by rw [hkey, h.s_init hs, schedule]⟩

/-- The effect of every command keeps the invariant. -/
theorem State.Inv.of_effect {i : Instr} {s' : State} {out : List Byte} (h : s.Inv)
    (hb : bodyOf i s = .ok (s', out)) : s'.Inv := by
  obtain ⟨rfl, -⟩ | ⟨rfl, -⟩ | ⟨rd, v, rfl, -⟩ | ⟨A, B, rfl, -⟩ | ⟨KEY, rfl, -⟩ | ⟨rfl, -, hkl⟩ | ⟨rfl, -⟩ |
    ⟨rfl, -, hl, hs⟩ | ⟨rfl, -, hkl⟩ := bodyOf_ok hb
  · exact h
  · exact (State.hasResetValues_resetEngine s).inv
  · rw [State.setReg_eq]; exact { h with }
  · exact { h with }
  · exact { h with key_loaded_of_l_written := fun _ => rfl }
  · exact { h with
      l_written_of_s_mixed := fun _ => nofun
      key_loaded_of_l_written := fun _ => hkl
      l_init := fun _ => ⟨s.KEY, rfl⟩
      l_mixed := nofun }
  · exact { h with
      l_written_of_s_mixed := nofun
      s_init := fun _ => rfl
      s_mixed := nofun }
  · obtain ⟨key, hkey⟩ := h.mix_eq_schedule hl hs
    exact { h with
      l_written_of_s_mixed := fun _ => nofun
      key_loaded_of_l_written := fun _ => h.key_loaded_of_l_written (by rw [hl]; nofun)
      l_init := nofun
      s_init := nofun
      l_mixed := fun _ => ⟨key, congrArg Prod.fst hkey⟩
      s_mixed := fun _ => ⟨key, congrArg Prod.snd hkey⟩ }
  · exact { h with
      l_written_of_s_mixed := fun _ => nofun
      key_loaded_of_l_written := fun _ => hkl
      l_init := nofun
      s_init := nofun
      l_mixed := fun _ => ⟨s.KEY, rfl⟩
      s_mixed := fun _ => ⟨s.KEY, rfl⟩ }

/-- Settles O56, by the ends of a step. -/
theorem stepKeepsTheInvariant : Obligations.StepKeepsTheInvariant := by
  intro s t hinv hstep
  cases stepEnd_of_step hstep with
  | idle => exact hinv
  | reset rest => exact ((State.hasResetValues_resetEngine s).withPort rest s.responses).inv
  | refused => exact hinv.respond _ _
  | faulted f _ hf => exact (hinv.recordFault hf).respond _ _
  | executed i s' out _ _ hb => exact (hinv.of_effect hb).respond _ _

/-- Settles O55: a state of reset has the values of R36, and those meet the invariant. -/
theorem resetStateMeetsTheInvariant : Obligations.ResetStateMeetsTheInvariant :=
  ⟨(State.hasResetValues_resetOf _).inv, fun cfg => (State.hasResetValues_resetOf cfg).inv⟩

end Sys2Proof.Machine
end

section
/-! Noninterference of the storage R36 leaves unspecified: two states that are the same but for it run every command
to the same answer, and are the same but for it again. -/

namespace Sys2Proof.Machine

section Unwritten

variable {s s' : State}

theorem State.SameButUnwritten.inputs_eq (h : s.SameButUnwritten s') : s'.inputs = s.inputs := by
  obtain ⟨KEY, L, S, rfl, -⟩ := h; rfl

theorem State.SameButUnwritten.responses_eq (h : s.SameButUnwritten s') : s'.responses = s.responses := by
  obtain ⟨KEY, L, S, rfl, -⟩ := h; rfl

theorem State.SameButUnwritten.cfg_eq (h : s.SameButUnwritten s') : s'.cfg = s.cfg := by
  obtain ⟨KEY, L, S, rfl, -⟩ := h; rfl

theorem State.SameButUnwritten.fault_eq (h : s.SameButUnwritten s') : s'.FAULT = s.FAULT := by
  obtain ⟨KEY, L, S, rfl, -⟩ := h; rfl

theorem State.SameButUnwritten.payload_eq (h : s.SameButUnwritten s') : s'.payload = s.payload := by
  obtain ⟨KEY, L, S, rfl, -⟩ := h; rfl

theorem State.SameButUnwritten.respond (h : s.SameButUnwritten s') (rc : BitVec 8) (out : List Byte) :
    (s.respond rc out).SameButUnwritten (s'.respond rc out) := by
  obtain ⟨KEY, L, S, rfl, hkey, hl, hs⟩ := h
  exact ⟨KEY, L, S, rfl, hkey, hl, hs⟩

theorem State.SameButUnwritten.recordFault (h : s.SameButUnwritten s') (f : FaultCode) :
    (s.recordFault f).SameButUnwritten (s'.recordFault f) := by
  obtain ⟨KEY, L, S, rfl, hkey, hl, hs⟩ := h
  exact ⟨KEY, L, S, rfl, hkey, hl, hs⟩

/-- A reset leaves all three stores unwritten, whatever they hold then (R36). -/
theorem State.SameButUnwritten.hardwareReset (h : s.SameButUnwritten s') (rest : List HostEvent) :
    ({ s.resetEngine with inputs := rest } : State).SameButUnwritten { s'.resetEngine with inputs := rest } := by
  obtain ⟨KEY, L, S, rfl, -⟩ := h
  exact ⟨_, _, _, rfl, nofun, fun hl => absurd rfl hl, fun hs => absurd rfl hs⟩

/-- Two outcomes are next states that are the same but for unwritten storage. -/
def SameOutcome (x x' : Host.Outcome State Fault Refusal) : Prop :=
  ∃ t t', x = .next t ∧ x' = .next t' ∧ t.SameButUnwritten t'

/-- Two bodies raise the same fault, or execute with one output to states that are the same but for unwritten
storage. -/
inductive SameEffect : Except FaultCode (State × List Byte) → Except FaultCode (State × List Byte) → Prop
  | faults (f : FaultCode) : SameEffect (.error f) (.error f)
  | executes {t t' : State} (out : List Byte) (same : t.SameButUnwritten t') :
      SameEffect (.ok (t, out)) (.ok (t', out))

theorem SameEffect.afterCheck {α : Type} {check check' : Except FaultCode α}
    {rest rest' : α → Except FaultCode (State × List Byte)} (hc : check' = check)
    (hr : ∀ a, check = .ok a → SameEffect (rest a) (rest' a)) :
    SameEffect (afterCheck check rest) (afterCheck check' rest') := by
  subst hc
  cases check' with
  | error f => exact .faults f
  | ok a => exact hr a rfl

/-- The frame of R83 reads nothing of the three stores. -/
theorem SameEffect.command {body body' : Except FaultCode (State × List Byte)} (hb : SameEffect body body')
    (h : s.SameButUnwritten s') (whenHalted : Bool) (len : Nat) :
    SameOutcome (command whenHalted len body s) (command whenHalted len body' s') := by
  unfold Machine.command
  rw [h.fault_eq, h.payload_eq]
  split
  · exact ⟨_, _, rfl, rfl, h.respond _ _⟩
  · split
    · exact ⟨_, _, rfl, rfl, (h.recordFault _).respond _ _⟩
    · cases hb with
      | faults f => exact ⟨_, _, rfl, rfl, (h.recordFault f).respond _ _⟩
      | executes out same => exact ⟨_, _, rfl, rfl, same.respond _ _⟩

theorem State.SameButUnwritten.illegalCommand (h : s.SameButUnwritten s') :
    SameOutcome (illegalCommand s) (illegalCommand s') := by
  unfold Machine.illegalCommand
  rw [h.fault_eq]
  split
  · exact ⟨_, _, rfl, rfl, h.respond _ _⟩
  · exact ⟨_, _, rfl, rfl, (h.recordFault _).respond _ _⟩

end Unwritten

section Effects

variable {s : State} {KEY : Vector Byte s.cfg.b} {L : Vector (Word s.cfg.w) s.cfg.c}
  {S : Vector (Word s.cfg.w) s.cfg.t}

/-- Writing one value to a register of both states. -/
theorem State.SameButUnwritten.setReg (h : s.SameButUnwritten { s with KEY := KEY, L := L, S := S }) (r : Reg)
    (v : Word s.cfg.w) :
    SameEffect (.ok (s.setReg r v, []))
      (.ok (({ s with KEY := KEY, L := L, S := S } : State).setReg r v, [])) := by
  obtain ⟨KEY', L', S', heq, hkey, hl, hs⟩ := h
  obtain ⟨rfl, rfl, rfl⟩ : KEY = KEY' ∧ L = L' ∧ S = S' := by simpa using heq
  cases r <;> exact .executes _ ⟨_, _, _, rfl, hkey, hl, hs⟩

end Effects

/-- The body of every command reads a store only after the check that something has written it (R213 to R215). -/
theorem State.SameButUnwritten.bodyOf {s s' : State} (h : s.SameButUnwritten s') (i : Instr) :
    SameEffect (bodyOf i s) (bodyOf i s') := by
  have same := h
  obtain ⟨KEY, L, S, rfl, hkey, hl, hs⟩ := h
  cases i with
  | nop => exact .executes _ same
  | srst => exact .executes _ ⟨_, _, _, rfl, nofun, fun hl => absurd rfl hl, fun hs => absurd rfl hs⟩
  | crd idx => exact .afterCheck rfl fun _ _ => .executes _ same
  | keyld => exact .executes _ ⟨_, L, S, rfl, fun _ => rfl, hl, hs⟩
  | linit =>
    refine .afterCheck rfl fun _ hok => ?_
    obtain rfl := hkey (requireKey_ok.mp hok)
    exact .executes _ ⟨_, _, S, rfl, fun _ => rfl, fun _ => rfl, hs⟩
  | sinit => exact .executes _ ⟨KEY, L, _, rfl, hkey, hl, fun _ => rfl⟩
  | mix =>
    refine .afterCheck rfl fun _ hok => ?_
    obtain ⟨hlst, hsst⟩ := requireInitialisedTables_ok.mp hok
    obtain rfl := hl (by rw [hlst]; nofun)
    obtain rfl := hs (by rw [hsst]; nofun)
    exact .executes _ ⟨KEY, _, _, rfl, hkey, fun _ => rfl, fun _ => rfl⟩
  | expand =>
    refine .afterCheck rfl fun _ hok => ?_
    obtain rfl := hkey (requireKey_ok.mp hok)
    exact .executes _ ⟨_, _, _, rfl, fun _ => rfl, fun _ => rfl, fun _ => rfl⟩
  | enc =>
    refine .afterCheck rfl fun _ hok => ?_
    obtain rfl := hs (by rw [requireCompletedSchedule_ok.mp hok]; nofun)
    exact .executes _ ⟨KEY, L, _, rfl, hkey, hl, fun _ => rfl⟩
  | dec =>
    refine .afterCheck rfl fun _ hok => ?_
    obtain rfl := hs (by rw [requireCompletedSchedule_ok.mp hok]; nofun)
    exact .executes _ ⟨KEY, L, _, rfl, hkey, hl, fun _ => rfl⟩
  | add rd rs1 rs2 => exact same.setReg rd (wordAdd (s.reg rs1) (s.reg rs2))
  | sub rd rs1 rs2 => exact same.setReg rd (wordSub (s.reg rs1) (s.reg rs2))
  | xor rd rs1 rs2 => exact same.setReg rd (wordXor (s.reg rs1) (s.reg rs2))
  | rotl rd rs1 rs2 => exact same.setReg rd (rotl (s.reg rs1) (s.reg rs2))
  | rotr rd rs1 rs2 => exact same.setReg rd (rotr (s.reg rs1) (s.reg rs2))
  | wld rd => exact same.setReg rd (fromBytes s.cfg.w s.payload)
  | wst rs1 => exact .executes _ same
  | blkld => exact .executes _ ⟨KEY, L, S, rfl, hkey, hl, hs⟩
  | blkst => exact .executes _ same
  | srd idx =>
    refine .afterCheck rfl fun _ hok => ?_
    obtain rfl := hs (requireWritten_ok.mp hok)
    exact .afterCheck rfl fun _ _ => .executes _ same
  | lrd idx =>
    refine .afterCheck rfl fun _ hok => ?_
    obtain rfl := hl (requireWritten_ok.mp hok)
    exact .afterCheck rfl fun _ _ => .executes _ same
  | smv rd idx =>
    refine .afterCheck rfl fun _ hok => ?_
    obtain rfl := hs (requireWritten_ok.mp hok)
    exact .afterCheck rfl fun v _ => same.setReg rd v

theorem State.SameButUnwritten.exec {s s' : State} (h : s.SameButUnwritten s') (i : Instr) :
    SameOutcome (exec i s) (exec i s') := by
  rw [exec_eq_command, exec_eq_command, h.cfg_eq]
  exact (h.bodyOf i).command h _ _

theorem State.SameButUnwritten.step {s s' : State} (h : s.SameButUnwritten s') :
    SameOutcome (step s) (step s') := by
  match hin : s.inputs with
  | [] =>
    exact ⟨s, s', step_of_no_event hin, step_of_no_event (h.inputs_eq.trans hin), h⟩
  | .hardwareReset :: rest =>
    exact ⟨_, _, step_of_hardwareReset hin, step_of_hardwareReset (h.inputs_eq.trans hin), h.hardwareReset rest⟩
  | .transaction cw inp :: rest =>
    cases hd : decode cw with
    | error e =>
      rw [step_of_illegal hin hd, step_of_illegal (h.inputs_eq.trans hin) hd]
      exact h.illegalCommand
    | ok i =>
      rw [step_of_decoded hin hd, step_of_decoded (h.inputs_eq.trans hin) hd]
      exact h.exec i

/-- One step more is the run from the state it leads to. -/
theorem core_run_succ {s t : State} (k : Nat) (h : core.step s = .next t) : core.run (k + 1) s = core.run k t := by
  simp only [Host.Core.run, h]

theorem State.SameButUnwritten.run (k : Nat) {s s' : State} (h : s.SameButUnwritten s') :
    SameOutcome (core.run k s) (core.run k s') := by
  induction k generalizing s s' with
  | zero => exact ⟨s, s', rfl, rfl, h⟩
  | succ k ih =>
    obtain ⟨t, t', ht, ht', same⟩ := h.step
    rw [core_run_succ k ht, core_run_succ k ht']
    exact ih same

/-- Settles O57, by induction on the number of steps. -/
theorem unwrittenStorageIsNeverObserved : Obligations.UnwrittenStorageIsNeverObserved := by
  intro k s s' h
  obtain ⟨t, t', ht, ht', same⟩ := h.run k
  exact ⟨t, t', ht, ht', same, same.responses_eq.symm⟩

end Sys2Proof.Machine
end

section
/-! The frame of every command: which stores it writes (R25), what becomes of the fault record (R30, R221), and the
transitions of the table states (R33, R37). -/

namespace Sys2Proof.Machine

/-! ## The stores as the statements read them -/

@[simp] theorem State.respond_regNat (s : State) (rc : BitVec 8) (out : List Byte) (r : Reg) :
    (s.respond rc out).regNat r = s.regNat r := by cases r <;> rfl
@[simp] theorem State.respond_keyBytes (s : State) (rc : BitVec 8) (out : List Byte) :
    (s.respond rc out).keyBytes = s.keyBytes := rfl
@[simp] theorem State.respond_lWords (s : State) (rc : BitVec 8) (out : List Byte) :
    (s.respond rc out).lWords = s.lWords := rfl
@[simp] theorem State.respond_sWords (s : State) (rc : BitVec 8) (out : List Byte) :
    (s.respond rc out).sWords = s.sWords := rfl

@[simp] theorem State.recordFault_regNat (s : State) (f : FaultCode) (r : Reg) :
    (s.recordFault f).regNat r = s.regNat r := by cases r <;> rfl
@[simp] theorem State.recordFault_keyBytes (s : State) (f : FaultCode) : (s.recordFault f).keyBytes = s.keyBytes := rfl
@[simp] theorem State.recordFault_lWords (s : State) (f : FaultCode) : (s.recordFault f).lWords = s.lWords := rfl
@[simp] theorem State.recordFault_sWords (s : State) (f : FaultCode) : (s.recordFault f).sWords = s.sWords := rfl

@[simp] theorem State.setReg_keyBytes (s : State) (r : Reg) (v : Word s.cfg.w) :
    (s.setReg r v).keyBytes = s.keyBytes := by cases r <;> rfl
@[simp] theorem State.setReg_lWords (s : State) (r : Reg) (v : Word s.cfg.w) :
    (s.setReg r v).lWords = s.lWords := by cases r <;> rfl
@[simp] theorem State.setReg_sWords (s : State) (r : Reg) (v : Word s.cfg.w) :
    (s.setReg r v).sWords = s.sWords := by cases r <;> rfl

/-- An update that leaves A and B alone leaves both registers alone. -/
theorem State.regNat_congr {s t : State} (hA : t.A.toNat = s.A.toNat) (hB : t.B.toNat = s.B.toNat) (r : Reg) :
    t.regNat r = s.regNat r := by
  cases r
  · exact hA
  · exact hB

/-! ## Ownership of the stores (R21 to R25, R31) -/

/-- Between the two states the command wrote only the stores the ownership table of R25 lists for it. -/
structure WritesOnlyItsOwn (i : Instr) (s t : State) : Prop where
  cfg_eq : t.cfg = s.cfg
  reg_eq : ∀ r, writesReg i r = false → t.regNat r = s.regNat r
  key_eq : ¬ WritesKey i → t.keyBytes = s.keyBytes ∧ t.KL = s.KL
  l_eq : ¬ WritesL i → t.lWords = s.lWords ∧ t.LST = s.LST
  s_eq : ¬ WritesS i → t.sWords = s.sWords ∧ t.SST = s.SST
  resets_eq : i ≠ .srst → t.resets = s.resets

theorem WritesOnlyItsOwn.refl (i : Instr) (s : State) : WritesOnlyItsOwn i s s :=
  ⟨rfl, fun _ _ => rfl, fun _ => ⟨rfl, rfl⟩, fun _ => ⟨rfl, rfl⟩, fun _ => ⟨rfl, rfl⟩, fun _ => rfl⟩

theorem WritesOnlyItsOwn.respond {i : Instr} {s t : State} (h : WritesOnlyItsOwn i s t) (rc : BitVec 8)
    (out : List Byte) : WritesOnlyItsOwn i s (t.respond rc out) :=
  { h with reg_eq := fun r hr => (t.respond_regNat rc out r).trans (h.reg_eq r hr) }

theorem WritesOnlyItsOwn.recordFault {i : Instr} {s t : State} (h : WritesOnlyItsOwn i s t) (f : FaultCode) :
    WritesOnlyItsOwn i s (t.recordFault f) :=
  { h with reg_eq := fun r hr => (t.recordFault_regNat f r).trans (h.reg_eq r hr) }

/-- The effect of a command writes only what the ownership table lists for it (R25). -/
theorem writesOnlyItsOwn_of_bodyOf {i : Instr} {s s' : State} {out : List Byte} (h : bodyOf i s = .ok (s', out)) :
    WritesOnlyItsOwn i s s' := by
  have hid := WritesOnlyItsOwn.refl i s
  obtain ⟨rfl, -⟩ | ⟨rfl, rfl⟩ | ⟨rd, v, rfl, hw⟩ | ⟨A, B, rfl, hi⟩ | ⟨KEY, rfl, rfl⟩ | ⟨rfl, rfl, -⟩ | ⟨rfl, rfl⟩ |
    ⟨rfl, rfl, -, -⟩ | ⟨rfl, rfl, -⟩ := bodyOf_ok h
  · exact hid
  · exact ⟨rfl, nofun, fun hn => absurd (.inr rfl) hn, fun hn => absurd (.inr (.inr (.inr rfl))) hn,
      fun hn => absurd (.inr (.inr (.inr rfl))) hn, fun hn => absurd rfl hn⟩
  · refine ⟨by simp, fun r hr => ?_, by simp, by simp, by simp, by simp⟩
    rw [hw] at hr
    rw [State.regNat, State.reg_setReg_toNat, if_neg (of_decide_eq_false hr), State.regNat]
  · have hr : ∀ r, writesReg i r = true := fun r => by obtain rfl | rfl | rfl := hi <;> rfl
    exact { hid with reg_eq := fun r hf => absurd (hr r) (by simp [hf]) }
  · exact { hid with
      reg_eq := fun r _ => State.regNat_congr rfl rfl r
      key_eq := fun hn => absurd (.inl rfl) hn }
  · exact { hid with
      reg_eq := fun r _ => State.regNat_congr rfl rfl r
      l_eq := fun hn => absurd (.inl rfl) hn }
  · exact { hid with
      reg_eq := fun r _ => State.regNat_congr rfl rfl r
      s_eq := fun hn => absurd (.inl rfl) hn }
  · exact { hid with
      reg_eq := fun r _ => State.regNat_congr rfl rfl r
      l_eq := fun hn => absurd (.inr (.inl rfl)) hn
      s_eq := fun hn => absurd (.inr (.inl rfl)) hn }
  · exact { hid with
      reg_eq := fun r _ => State.regNat_congr rfl rfl r
      l_eq := fun hn => absurd (.inr (.inr (.inl rfl))) hn
      s_eq := fun hn => absurd (.inr (.inr (.inl rfl))) hn }

theorem writesOnlyItsOwn_of_exec {i : Instr} {s t : State} (h : exec i s = .next t) : WritesOnlyItsOwn i s t := by
  cases commandEnd_of_exec h with
  | refused => exact (WritesOnlyItsOwn.refl i s).respond _ _
  | faulted f => exact ((WritesOnlyItsOwn.refl i s).recordFault f).respond _ _
  | executed s' out _ hb => exact (writesOnlyItsOwn_of_bodyOf hb).respond _ _

/-! ## The fault record -/

/-- The effect of no command but SRST touches the fault record (R29, R30). -/
theorem faultRecord_of_bodyOf {i : Instr} {s s' : State} {out : List Byte} (h : bodyOf i s = .ok (s', out))
    (hi : i ≠ .srst) : s'.FAULT = s.FAULT ∧ s'.FCODE = s.FCODE ∧ s'.FCW = s.FCW := by
  obtain ⟨rfl, -⟩ | ⟨rfl, rfl⟩ | ⟨rd, v, rfl, -⟩ | ⟨A, B, rfl, -⟩ | ⟨KEY, rfl, -⟩ | ⟨rfl, -⟩ | ⟨rfl, -⟩ |
    ⟨rfl, -⟩ | ⟨rfl, -⟩ := bodyOf_ok h
  case inr.inl => exact absurd rfl hi
  all_goals simp

/-- Settles O52: the frame of the stores, and the fault record by the ends of a command. -/
theorem onlyTheListedCommandsWriteEachStore : Obligations.OnlyTheListedCommandsWriteEachStore := by
  intro i s t h
  obtain ⟨hcfg, hreg, hkey, hl, hs, hresets⟩ := writesOnlyItsOwn_of_exec h
  refine ⟨hcfg, hreg, hkey, hl, hs, fun hi => ⟨hresets hi, ?_⟩⟩
  cases commandEnd_of_exec h with
  | refused => exact .inl ⟨rfl, rfl, rfl⟩
  | faulted f hf => exact .inr ⟨hf, rfl⟩
  | executed s' out _ hb => exact .inl (by simpa using faultRecord_of_bodyOf hb hi)

/-- Settles O14: a halted engine raises no fault, so only its resets touch the record. -/
theorem firstFaultIsKept : Obligations.FirstFaultIsKept := by
  intro s t hstep hf
  cases stepEnd_of_step hstep with
  | idle => exact .inl ⟨hf, rfl, rfl⟩
  | reset rest hin => exact .inr ⟨.inl (by rw [hin]; rfl), rfl, rfl, rfl⟩
  | refused => exact .inl ⟨hf, rfl, rfl⟩
  | faulted f hrun => rw [hf] at hrun; cases hrun
  | executed i s' out hd hr hb =>
    obtain rfl | ⟨rfl, rfl⟩ := bodyOf_ok_of_runsWhenHalted hb (hr hf)
    · exact .inl ⟨hf, rfl, rfl⟩
    · exact .inr ⟨.inr hd, rfl, rfl, rfl⟩

/-! ## The table states -/

/-- LST and SST after a command that executes (R33). -/
def tableStatesAfter (s : State) : Instr → TableState × TableState
  | .srst => (.empty, .empty)
  | .linit => (.init, s.SST)
  | .sinit => (s.LST, .init)
  | .mix | .expand => (.mixed, .mixed)
  | _ => (s.LST, s.SST)

theorem tableStates_of_bodyOf {i : Instr} {s s' : State} {out : List Byte} (h : bodyOf i s = .ok (s', out)) :
    (s'.LST, s'.SST) = tableStatesAfter s i := by
  have hw := writesOnlyItsOwn_of_bodyOf h
  cases i
  case srst => cases h; rfl
  case linit => obtain ⟨_, -, hs⟩ := afterCheck_ok.mp h; cases hs; rfl
  case sinit => cases h; rfl
  case mix => obtain ⟨_, -, hs⟩ := afterCheck_ok.mp h; cases hs; rfl
  case expand => obtain ⟨_, -, hs⟩ := afterCheck_ok.mp h; cases hs; rfl
  all_goals exact congrArg₂ Prod.mk (hw.l_eq (by simp [WritesL])).2 (hw.s_eq (by simp [WritesS])).2

/-- MIX executes on initialised tables only (R148, R214). -/
theorem tablesInit_of_bodyOf_mix {s s' : State} {out : List Byte} (h : bodyOf .mix s = .ok (s', out)) :
    s.LST = .init ∧ s.SST = .init := by
  obtain ⟨_, hok, -⟩ := afterCheck_ok.mp h
  exact requireInitialisedTables_ok.mp hok

/-- A command that ends halted without having faulted changed nothing: the engine was halted before (R222). -/
theorem eq_of_bodyOf_of_halted {i : Instr} {s s' : State} {out : List Byte} (h : bodyOf i s = .ok (s', out))
    (hr : s.FAULT = true → runsWhenHalted i = true) (hf : s'.FAULT = true) : s' = s := by
  by_cases hi : i = .srst
  · subst hi; cases h; cases hf
  · have hs : s.FAULT = true := (faultRecord_of_bodyOf h hi).1 ▸ hf
    exact (bodyOf_ok_of_runsWhenHalted h (hr hs)).resolve_right fun hx => hi hx.2

/-- A command that ends with the engine halted leaves both table states alone. -/
theorem tableStates_of_exec_halted {i : Instr} {s t : State} (h : exec i s = .next t) (ht : t.FAULT = true) :
    t.LST = s.LST ∧ t.SST = s.SST := by
  cases commandEnd_of_exec h with
  | refused => exact ⟨rfl, rfl⟩
  | faulted => exact ⟨rfl, rfl⟩
  | executed s' out hr hb =>
    obtain rfl := eq_of_bodyOf_of_halted hb hr ht
    exact ⟨rfl, rfl⟩

/-- A command that ends with the engine running has executed. -/
theorem tableStates_of_exec_running {i : Instr} {s t : State} (h : exec i s = .next t) (ht : t.FAULT = false) :
    (t.LST, t.SST) = tableStatesAfter s i ∧ (i = .mix → s.LST = .init ∧ s.SST = .init) ∧
      (i ≠ .srst → s.FAULT = false) := by
  cases commandEnd_of_exec h with
  | refused hf => rw [State.respond_FAULT, hf] at ht; cases ht
  | faulted => cases ht
  | executed s' out _ hb =>
    have hst : (s'.LST, s'.SST) = tableStatesAfter s i := tableStates_of_bodyOf hb
    refine ⟨hst, ?_, fun hi => (faultRecord_of_bodyOf hb hi).1 ▸ ht⟩
    rintro rfl
    exact tablesInit_of_bodyOf_mix hb

/-- The five transitions of R33: a command that moves a table state makes one of them. -/
theorem transition_of_tableStates_ne {i : Instr} {s t : State} (h : (t.LST, t.SST) = tableStatesAfter s i)
    (hmix : i = .mix → s.LST = .init ∧ s.SST = .init) (hne : (t.LST, t.SST) ≠ (s.LST, s.SST)) :
    (i = .srst ∧ t.LST = .empty ∧ t.SST = .empty) ∨ (i = .linit ∧ t.LST = .init ∧ t.SST = s.SST) ∨
      (i = .sinit ∧ t.LST = s.LST ∧ t.SST = .init) ∨
      (i = .mix ∧ s.LST = .init ∧ s.SST = .init ∧ t.LST = .mixed ∧ t.SST = .mixed) ∨
      (i = .expand ∧ t.LST = .mixed ∧ t.SST = .mixed) := by
  cases i
  case srst => exact .inl ⟨rfl, Prod.mk.inj h⟩
  case linit => exact .inr (.inl ⟨rfl, Prod.mk.inj h⟩)
  case sinit => exact .inr (.inr (.inl ⟨rfl, Prod.mk.inj h⟩))
  case mix => exact .inr (.inr (.inr (.inl ⟨rfl, (hmix rfl).1, (hmix rfl).2, Prod.mk.inj h⟩)))
  case expand => exact .inr (.inr (.inr (.inr ⟨rfl, Prod.mk.inj h⟩)))
  all_goals exact absurd h hne

theorem tableStates_of_illegal {s t : State} {cw : CommandWord} {inp : List Byte} {rest : List HostEvent}
    (hin : s.inputs = .transaction cw inp :: rest) (hd : ¬ ∃ i, decode cw = .ok i) (h : step s = .next t) :
    t.LST = s.LST ∧ t.SST = s.SST := by
  cases hdec : decode cw with
  | ok i => exact absurd ⟨i, hdec⟩ hd
  | error e =>
    rw [step_of_illegal hin hdec] at h
    obtain ⟨-, he⟩ | ⟨-, he⟩ := illegalCommand_cases s <;> (rw [he] at h; cases h; exact ⟨rfl, rfl⟩)

/-- Settles O53: a command that ends running makes the transition of `tableStatesAfter`, one that ends halted makes
none. -/
theorem tableStateTransitions : Obligations.TableStateTransitions := by
  refine ⟨fun i s t h hne => ?_, fun i s t h _ ht => ?_, fun s t h ht => ?_,
    fun i s t h ht => tableStates_of_exec_halted h ht,
    fun s t cw inp rest hin hd h => tableStates_of_illegal hin hd h, fun s t rest hin h => ?_⟩
  · have ht : t.FAULT = false := Bool.eq_false_iff.mpr fun hf =>
      hne (congrArg₂ Prod.mk (tableStates_of_exec_halted h hf).1 (tableStates_of_exec_halted h hf).2)
    obtain ⟨hst, hmix, hrun⟩ := tableStates_of_exec_running h ht
    refine ⟨?_, transition_of_tableStates_ne hst hmix hne⟩
    by_cases hi : i = .srst
    · exact .inr hi
    · exact .inl ⟨hrun hi, ht⟩
  · obtain ⟨hst, hmix, -⟩ := tableStates_of_exec_running h ht
    refine ⟨?_, ?_, ?_, ?_⟩ <;> rintro rfl
    · exact Prod.mk.inj hst
    · exact Prod.mk.inj hst
    · exact ⟨(hmix rfl).1, (hmix rfl).2, Prod.mk.inj hst⟩
    · exact Prod.mk.inj hst
  · exact Prod.mk.inj (tableStates_of_exec_running h ht).1
  · rw [step_of_hardwareReset hin] at h
    cases h
    exact ⟨rfl, rfl⟩

/-- Settles O54: the only commands that write S are MIX, which needs SST = INIT, and those listed. -/
theorem completedScheduleIsImmutable : Obligations.CompletedScheduleIsImmutable := by
  intro s t hstep hs
  cases stepEnd_of_step hstep with
  | idle => exact .inl ⟨hs, rfl⟩
  | reset rest hin => exact .inr (.inr (.inr (.inr (by rw [hin]; rfl))))
  | refused => exact .inl ⟨hs, rfl⟩
  | faulted f => exact .inl ⟨hs, rfl⟩
  | executed i s' out hd _ hb =>
    by_cases hw : WritesS i
    · obtain rfl | rfl | rfl | rfl := hw
      · exact .inr (.inl hd)
      · rw [(tablesInit_of_bodyOf_mix hb).2] at hs
        cases hs
      · exact .inr (.inr (.inl hd))
      · exact .inr (.inr (.inr (.inl hd)))
    · obtain ⟨hwords, hstate⟩ := (writesOnlyItsOwn_of_bodyOf hb).s_eq hw
      exact .inl ⟨hstate.trans hs, hwords⟩

end Sys2Proof.Machine
end

section
/-! A transaction's step, the STATUS word (R29), and the reset states (R36, R191, R240). -/

namespace Sys2Proof.Machine

/-- Settles O6. -/
theorem stepRunsTheDecodedCommand : Obligations.StepRunsTheDecodedCommand :=
  fun _ _ _ _ _ hin hd => ⟨step_of_decoded hin hd, State.cw_of_transaction hin, State.payload_of_transaction hin⟩

/-! ## The STATUS word -/

theorem TableState.code_le (table : TableState) : table.code ≤ 2 := by cases table <;> decide

/-- The sum of R29 fits the register. -/
theorem State.statusWord_toNat (s : State) :
    s.statusWord.toNat =
      s.KL.toNat + 2 * s.LST.code + 8 * s.SST.code + 32 * s.FAULT.toNat + 256 * s.FCODE.toNat := by
  have hkl := s.KL.toNat_le
  have hlst := s.LST.code_le
  have hsst := s.SST.code_le
  have hfault := s.FAULT.toNat_le
  have hfcode := s.FCODE.isLt
  rw [State.statusWord, BitVec.toNat_ofNat, Nat.mod_eq_of_lt (by omega)]

/-- A field of a word as digits of its number. -/
theorem extractLsb'_toNat_eq_div {w : Nat} (x : BitVec w) (lo len : Nat) :
    (x.extractLsb' lo len).toNat = x.toNat / 2 ^ lo % 2 ^ len := by
  rw [BitVec.extractLsb'_toNat, Nat.shiftRight_eq_div_pow]

/-- Settles O22: the fields of R29 are digits of the sum, read off by division. -/
theorem statusWordLayout : Obligations.StatusWordLayout := by
  intro s
  have hsum := s.statusWord_toNat
  have hkl := s.KL.toNat_le
  have hlst := s.LST.code_le
  have hsst := s.SST.code_le
  have hfault := s.FAULT.toNat_le
  have hfcode := s.FCODE.isLt
  have hbit (b : Bool) : decide (b.toNat = 1) = b := by cases b <;> rfl
  refine ⟨hsum, ?_, ?_, ?_, ?_, ?_, ?_, ?_, rfl, rfl, rfl⟩
  · rw [← BitVec.testBit_toNat, Nat.testBit_eq_decide_div_mod_eq,
      show s.statusWord.toNat / 2 ^ 0 % 2 = s.KL.toNat by omega, hbit]
  · rw [extractLsb'_toNat_eq_div]; omega
  · rw [extractLsb'_toNat_eq_div]; omega
  · rw [← BitVec.testBit_toNat, Nat.testBit_eq_decide_div_mod_eq,
      show s.statusWord.toNat / 2 ^ 5 % 2 = s.FAULT.toNat by omega, hbit]
  · refine BitVec.eq_of_toNat_eq ?_
    rw [extractLsb'_toNat_eq_div, BitVec.ofNat_eq_ofNat, BitVec.toNat_zero]; omega
  · refine BitVec.eq_of_toNat_eq ?_
    rw [extractLsb'_toNat_eq_div]; omega
  · refine BitVec.eq_of_toNat_eq ?_
    rw [extractLsb'_toNat_eq_div, BitVec.ofNat_eq_ofNat, BitVec.toNat_zero]; omega

/-! ## The reset states -/

/-- SRST with an empty payload, halted or not (R191). -/
theorem exec_srst_of_empty {s : State} (hp : s.payload = []) :
    exec .srst s = .next (s.resetEngine.respond rcOK []) :=
  command_done_whenHalted rfl hp rfl

/-- Settles O11. -/
theorem resetStatesHaveTheListedValues : Obligations.ResetStatesHaveTheListedValues := by
  refine ⟨State.hasResetValues_resetOf _, fun cfg => ⟨State.hasResetValues_resetOf cfg, rfl⟩, fun s hp => ?_,
    fun s rest hin => ?_⟩
  · exact ⟨_, exec_srst_of_empty hp, (State.hasResetValues_resetEngine s).withPort _ _, rfl⟩
  · exact ⟨_, step_of_hardwareReset hin, (State.hasResetValues_resetEngine s).withPort _ _, rfl, rfl, rfl⟩

/-- Settles O21. -/
theorem srstResetsTheEngine : Obligations.SrstResetsTheEngine := by
  have hdec : decode 0x01000000 = .ok .srst := by decide
  refine ⟨by decide, fun s hp => ⟨_, _, _, exec_srst_of_empty hp⟩, fun s t rest h => ?_, fun s hp hf => ?_,
    fun s hp hf => ?_⟩
  · rw [step_of_decoded rfl hdec, exec_srst_of_empty rfl] at h
    cases h
    exact step_of_hardwareReset rfl
  · exact (exec_eq_command .srst s).trans <| command_badLength hf fun hl => hp (List.length_eq_zero_iff.mp hl)
  · exact (exec_eq_command .srst s).trans <| command_refused hf fun hx => hp hx.2

end Sys2Proof.Machine
end

section
/-! The opcode map row by row (R72, R75, R77, R78): a word selects a row exactly by its fields, at most one row, and
the encoder writes what the selected row reads. -/

namespace Sys2Proof.Laws

/-! ## The columns of the map -/

/-- The `match` and `mask` columns follow from the `op` and `format` columns (R72, R75). -/
theorem row_columns : ∀ row ∈ opcodeTable,
    row.op < 2 ^ 8 ∧ row.pattern = BitVec.ofNat 32 (row.op * 2 ^ 24) ∧ row.mask = formatMask row.format := by
  decide

theorem row_ops_nodup : (opcodeTable.map OpRow.op).Nodup := by decide

/-- The `op` value names the row (R75). -/
theorem row_eq_of_op {row row' : OpRow} (h : row ∈ opcodeTable) (h' : row' ∈ opcodeTable) (hop : row.op = row'.op) :
    row = row' :=
  List.inj_on_of_nodup_map row_ops_nodup h h' hop

/-! ## Selection by fields (R78) -/

/-- A word has the opcode of the row, `z = 0`, and 0 in every field the format of the row does not use. -/
def HasFieldsOf (row : OpRow) (cw : CommandWord) : Prop :=
  opField cw = row.op ∧ zField cw = 0 ∧ (usesRd row.format = false → rdField cw = 0) ∧
    (usesRs1 row.format = false → rs1Field cw = 0) ∧ (usesRs2 row.format = false → rs2Field cw = 0) ∧
    (usesIdx row.format = false → idxField cw = 0)

/-- A field a format frees is 0 under its mask, one it fixes keeps its value. -/
theorem ite_zero_eq_zero_iff (free : Bool) (v : Nat) :
    (if free then 0 else v) = 0 ↔ (free = false → v = 0) := by
  cases free <;> simp

/-- A field under a mask stays in its range. -/
theorem ite_zero_lt (free : Bool) {v n : Nat} (h : v < n) : (if free then 0 else v) < n := by
  cases free
  · exact h
  · exact Nat.zero_lt_of_lt h

/-- A word selects a row exactly by its fields. -/
theorem selects_iff_hasFieldsOf {row : OpRow} (h : row ∈ opcodeTable) (cw : CommandWord) :
    cw &&& row.mask = row.pattern ↔ HasFieldsOf row cw := by
  obtain ⟨hlt, hpattern, hmask⟩ := row_columns row h
  rw [hpattern, hmask, ← BitVec.toNat_inj, and_formatMask_toNat, BitVec.toNat_ofNat, Nat.mod_eq_of_lt (by omega),
    HasFieldsOf, ← ite_zero_eq_zero_iff, ← ite_zero_eq_zero_iff, ← ite_zero_eq_zero_iff, ← ite_zero_eq_zero_iff]
  have hidx := ite_zero_lt (usesIdx row.format) (idxField_lt cw)
  have hrd := ite_zero_lt (usesRd row.format) (rdField_lt cw)
  have hrs1 := ite_zero_lt (usesRs1 row.format) (rs1Field_lt cw)
  have hrs2 := ite_zero_lt (usesRs2 row.format) (rs2Field_lt cw)
  have hz := zField_lt cw
  omega

/-! ## The decoder (R77) -/

/-- A word that selects a row decodes to the instruction of that row: no other row before it is selected. -/
theorem decode_of_selects {row : OpRow} (h : row ∈ opcodeTable) {cw : CommandWord}
    (hs : cw &&& row.mask = row.pattern) : decode cw = .ok (row.build cw) := by
  cases hfind : opcodeTable.find? (fun row => row.selects cw) with
  | none => exact absurd (decide_eq_true hs) (List.find?_eq_none.mp hfind row h)
  | some row' =>
    have h' := List.mem_of_find?_eq_some hfind
    have hs' : cw &&& row'.mask = row'.pattern :=
      of_decide_eq_true (List.find?_some (p := (OpRow.selects · cw)) hfind)
    have hop := ((selects_iff_hasFieldsOf h' cw).mp hs').1
    rw [((selects_iff_hasFieldsOf h cw).mp hs).1] at hop
    rw [row_eq_of_op h h' hop, decode, hfind]

theorem decode_of_selects_none {cw : CommandWord} (h : ∀ row ∈ opcodeTable, cw &&& row.mask ≠ row.pattern) :
    decode cw = .error (illegalCause cw) := by
  have hfind : opcodeTable.find? (fun row => row.selects cw) = none :=
    List.find?_eq_none.mpr fun row hrow hs => h row hrow (of_decide_eq_true hs)
  rw [decode, hfind]

/-- What the decoder answers comes from a row the word selects. -/
theorem decode_eq_ok_iff {cw : CommandWord} {i : Instr} :
    decode cw = .ok i ↔ ∃ row ∈ opcodeTable, HasFieldsOf row cw ∧ row.build cw = i := by
  constructor
  · intro hd
    by_contra hnone
    have hselects : ∀ row ∈ opcodeTable, cw &&& row.mask ≠ row.pattern := fun row h hs => by
      have hbuild := decode_of_selects h hs
      rw [hd, Except.ok.injEq] at hbuild
      exact hnone ⟨row, h, (selects_iff_hasFieldsOf h cw).mp hs, hbuild.symm⟩
    rw [decode_of_selects_none hselects] at hd
    cases hd
  · rintro ⟨row, h, hfields, rfl⟩
    exact decode_of_selects h ((selects_iff_hasFieldsOf h cw).mpr hfields)

/-! ## The encoder and the row of each instruction -/

/-- The operands read from an assembled word are those it was assembled from (R71, R73). -/
theorem operands_assemble {op idx : Nat} (hop : op < 2 ^ 8) (rd rs1 rs2 : Reg) (hidx : idx < 2 ^ 16) :
    operandRd (assemble op (regBit rd) (regBit rs1) (regBit rs2) idx) = rd ∧
      operandRs1 (assemble op (regBit rd) (regBit rs1) (regBit rs2) idx) = rs1 ∧
      operandRs2 (assemble op (regBit rd) (regBit rs1) (regBit rs2) idx) = rs2 ∧
      idxField (assemble op (regBit rd) (regBit rs1) (regBit rs2) idx) = idx := by
  obtain ⟨-, hrd, hrs1, hrs2, -, hi⟩ := fields_assemble hop (regBit_lt rd) (regBit_lt rs1) (regBit_lt rs2) hidx
  simp [operandRd, operandRs1, operandRs2, hrd, hrs1, hrs2, hi]

/-- Format R: the three operands are read back, whichever command they belong to. -/
theorem threeOperands_assemble (build : Reg → Reg → Reg → Instr) {op : Nat} (hop : op < 2 ^ 8) (rd rs1 rs2 : Reg) :
    let cw := assemble op (regBit rd) (regBit rs1) (regBit rs2) 0
    build (operandRd cw) (operandRs1 cw) (operandRs2 cw) = build rd rs1 rs2 := by
  obtain ⟨hrd, hrs1, hrs2, -⟩ := operands_assemble hop rd rs1 rs2 (idx := 0) (by decide)
  simp only [hrd, hrs1, hrs2]

/-- Format X: the index is read back, whichever command it belongs to. -/
theorem index_assemble (build : Nat → Instr) {op idx : Nat} (hop : op < 2 ^ 8) (hidx : indexFits idx = true) :
    build (idxField (assemble op 0 0 0 idx)) = build idx := by
  obtain ⟨-, -, -, hi⟩ := operands_assemble hop .A .A .A (of_decide_eq_true hidx)
  exact congrArg build hi

/-- The row of each instruction, and that it reads the word of the instruction as the instruction (R75, R77). -/
theorem exists_row {i : Instr} (h : i.WellFormed) :
    ∃ row ∈ opcodeTable, row.op = opcodeOf i ∧ row.format = formatOf i ∧ row.build (encode i) = i := by
  cases i with
  | nop => exact ⟨_, List.mem_of_getElem? (i := 0) rfl, rfl, rfl, rfl⟩
  | srst => exact ⟨_, List.mem_of_getElem? (i := 1) rfl, rfl, rfl, rfl⟩
  | crd idx => exact ⟨_, List.mem_of_getElem? (i := 2) rfl, rfl, rfl, index_assemble .crd (by decide) h⟩
  | keyld => exact ⟨_, List.mem_of_getElem? (i := 3) rfl, rfl, rfl, rfl⟩
  | linit => exact ⟨_, List.mem_of_getElem? (i := 4) rfl, rfl, rfl, rfl⟩
  | sinit => exact ⟨_, List.mem_of_getElem? (i := 5) rfl, rfl, rfl, rfl⟩
  | mix => exact ⟨_, List.mem_of_getElem? (i := 6) rfl, rfl, rfl, rfl⟩
  | expand => exact ⟨_, List.mem_of_getElem? (i := 7) rfl, rfl, rfl, rfl⟩
  | enc => exact ⟨_, List.mem_of_getElem? (i := 8) rfl, rfl, rfl, rfl⟩
  | dec => exact ⟨_, List.mem_of_getElem? (i := 9) rfl, rfl, rfl, rfl⟩
  | add rd rs1 rs2 =>
    exact ⟨_, List.mem_of_getElem? (i := 10) rfl, rfl, rfl, threeOperands_assemble .add (by decide) rd rs1 rs2⟩
  | sub rd rs1 rs2 =>
    exact ⟨_, List.mem_of_getElem? (i := 11) rfl, rfl, rfl, threeOperands_assemble .sub (by decide) rd rs1 rs2⟩
  | xor rd rs1 rs2 =>
    exact ⟨_, List.mem_of_getElem? (i := 12) rfl, rfl, rfl, threeOperands_assemble .xor (by decide) rd rs1 rs2⟩
  | rotl rd rs1 rs2 =>
    exact ⟨_, List.mem_of_getElem? (i := 13) rfl, rfl, rfl, threeOperands_assemble .rotl (by decide) rd rs1 rs2⟩
  | rotr rd rs1 rs2 =>
    exact ⟨_, List.mem_of_getElem? (i := 14) rfl, rfl, rfl, threeOperands_assemble .rotr (by decide) rd rs1 rs2⟩
  | wld rd =>
    exact ⟨_, List.mem_of_getElem? (i := 15) rfl, rfl, rfl,
      threeOperands_assemble (fun rd _ _ => .wld rd) (by decide) rd .A .A⟩
  | wst rs1 =>
    exact ⟨_, List.mem_of_getElem? (i := 16) rfl, rfl, rfl,
      threeOperands_assemble (fun _ rs1 _ => .wst rs1) (by decide) .A rs1 .A⟩
  | blkld => exact ⟨_, List.mem_of_getElem? (i := 17) rfl, rfl, rfl, rfl⟩
  | blkst => exact ⟨_, List.mem_of_getElem? (i := 18) rfl, rfl, rfl, rfl⟩
  | srd idx => exact ⟨_, List.mem_of_getElem? (i := 19) rfl, rfl, rfl, index_assemble .srd (by decide) h⟩
  | lrd idx => exact ⟨_, List.mem_of_getElem? (i := 20) rfl, rfl, rfl, index_assemble .lrd (by decide) h⟩
  | smv rd idx =>
    obtain ⟨hrd, -, -, hi⟩ := operands_assemble (op := 0x52) (by decide) rd .A .A (of_decide_eq_true h)
    exact ⟨_, List.mem_of_getElem? (i := 21) rfl, rfl, rfl, congrArg₂ Instr.smv hrd hi⟩

/-- The fields of the word of every well-formed instruction, collected from its constructors. -/
theorem fieldsInRange (i : Instr) : FieldsInRange.Statement i := by
  cases i with
  | nop => exact FieldsInRange.nop
  | srst => exact FieldsInRange.srst
  | crd idx => exact FieldsInRange.crd idx
  | keyld => exact FieldsInRange.keyld
  | linit => exact FieldsInRange.linit
  | sinit => exact FieldsInRange.sinit
  | mix => exact FieldsInRange.mix
  | expand => exact FieldsInRange.expand
  | enc => exact FieldsInRange.enc
  | dec => exact FieldsInRange.dec
  | add rd rs1 rs2 => exact FieldsInRange.add rd rs1 rs2
  | sub rd rs1 rs2 => exact FieldsInRange.sub rd rs1 rs2
  | xor rd rs1 rs2 => exact FieldsInRange.xor rd rs1 rs2
  | rotl rd rs1 rs2 => exact FieldsInRange.rotl rd rs1 rs2
  | rotr rd rs1 rs2 => exact FieldsInRange.rotr rd rs1 rs2
  | wld rd => exact FieldsInRange.wld rd
  | wst rs1 => exact FieldsInRange.wst rs1
  | blkld => exact FieldsInRange.blkld
  | blkst => exact FieldsInRange.blkst
  | srd idx => exact FieldsInRange.srd idx
  | lrd idx => exact FieldsInRange.lrd idx
  | smv rd idx => exact FieldsInRange.smv rd idx

/-- Settles O2: the word of a command has the fields of the command's row, and that row reads the operands back. -/
theorem decodeOfEncode : Obligations.DecodeOfEncode := by
  intro i hwf
  obtain ⟨row, hrow, hop, hformat, hbuild⟩ := exists_row hwf
  refine decode_eq_ok_iff.mpr ⟨row, hrow, ?_, hbuild⟩
  rw [HasFieldsOf, hop, hformat]
  exact fieldsInRange i hwf

theorem regBit_operandRd (cw : CommandWord) : regBit (operandRd cw) = rdField cw := regBit_selectReg (rdField_lt cw)
theorem regBit_operandRs1 (cw : CommandWord) : regBit (operandRs1 cw) = rs1Field cw :=
  regBit_selectReg (rs1Field_lt cw)
theorem regBit_operandRs2 (cw : CommandWord) : regBit (operandRs2 cw) = rs2Field cw :=
  regBit_selectReg (rs2Field_lt cw)

/-- A field with a value only where the format uses it, as the encoder writes it. -/
theorem ite_zero_eq_self {used : Bool} {v : Nat} (h : used = false → v = 0) : (if used then v else 0) = v := by
  cases used
  · exact (h rfl).symm
  · rfl

/-- The encoder writes the row's opcode and the fields its format uses, each as the row read it. -/
theorem encode_build : ∀ row ∈ opcodeTable, ∀ cw, encode (row.build cw) =
    assemble row.op (if usesRd row.format then rdField cw else 0) (if usesRs1 row.format then rs1Field cw else 0)
      (if usesRs2 row.format then rs2Field cw else 0) (if usesIdx row.format then idxField cw else 0) := by
  simp [opcodeTable, systemRows, keyScheduleRows, roundCipherRows, wordArithmeticRows, wordCodecRows, observationRows,
    encode, usesRd, usesRs1, usesRs2, usesIdx, regBit_operandRd, regBit_operandRs1, regBit_operandRs2]

theorem indexFits_idxField (cw : CommandWord) : indexFits (idxField cw) = true := decide_eq_true (idxField_lt cw)

/-- The operands a row reads are well-formed: the index comes from its 16-bit field (R74). -/
theorem wellFormed_build : ∀ row ∈ opcodeTable, ∀ cw, (row.build cw).WellFormed := by
  simp [opcodeTable, systemRows, keyScheduleRows, roundCipherRows, wordArithmeticRows, wordCodecRows, observationRows,
    Instr.WellFormed, Instr.wf, indexFits_idxField]

/-- Settles O3: the encoder writes back the fields of the selected row, and the fields make up the word. -/
theorem encodeOfDecode : Obligations.EncodeOfDecode := by
  intro cw i hd
  obtain ⟨row, hrow, ⟨hop, hz, hrd, hrs1, hrs2, hidx⟩, rfl⟩ := decode_eq_ok_iff.mp hd
  refine ⟨wellFormed_build row hrow cw, ?_⟩
  rw [encode_build row hrow, ite_zero_eq_self hrd, ite_zero_eq_self hrs1, ite_zero_eq_self hrs2,
    ite_zero_eq_self hidx, ← hop]
  exact assemble_fields hz

/-! ## The map as R77 and R78 state it -/

/-- A one-bit field is 0 or 1 as its bit is (R10). -/
theorem selectReg_bitField (cw : CommandWord) (k : Nat) :
    selectReg (bitField cw k k) = if cw.getLsbD k then .B else .A := by
  rw [← BitVec.testBit_toNat, Nat.testBit_eq_decide_div_mod_eq, selectReg, bitField, Nat.sub_self]
  rcases Nat.mod_two_eq_zero_or_one (cw.toNat / 2 ^ k) with h | h <;> simp [h]

/-- Settles O4. -/
theorem decodeSelectsTheOneRow : Obligations.DecodeSelectsTheOneRow := by
  refine ⟨row_ops_nodup, rfl, by decide, fun cw row h hs => decode_of_selects h hs, ?_,
    fun cw h => ⟨_, decode_of_selects_none h⟩, fun cw => ⟨?_, ?_, ?_, ?_⟩⟩
  · intro cw row h row' h' hs hs'
    obtain ⟨hop, -⟩ := (selects_iff_hasFieldsOf h cw).mp hs
    obtain ⟨hop', -⟩ := (selects_iff_hasFieldsOf h' cw).mp hs'
    exact hop.symm.trans hop'
  · exact selectReg_bitField cw 23
  · exact selectReg_bitField cw 22
  · exact selectReg_bitField cw 21
  · exact (Machine.extractLsb'_toNat_eq_div cw 0 16).symm

/-- The gaps between the assigned `op` values (R78). -/
theorem unassigned_op_iff (op : Nat) (h : op < 256) :
    (∀ row ∈ opcodeTable, row.op ≠ op) ↔ (0x03 ≤ op ∧ op ≤ 0x0F) ∨ (0x15 ≤ op ∧ op ≤ 0x1F) ∨
      (0x22 ≤ op ∧ op ≤ 0x2F) ∨ (0x35 ≤ op ∧ op ≤ 0x3F) ∨ (0x44 ≤ op ∧ op ≤ 0x4F) ∨ 0x53 ≤ op := by
  simp only [opcodeTable, systemRows, keyScheduleRows, roundCipherRows, wordArithmeticRows, wordCodecRows,
    observationRows, List.forall_mem_append, List.forall_mem_cons, ne_eq, List.not_mem_nil, IsEmpty.forall_iff,
    implies_true, and_true]
  omega

/-- Settles O5. -/
theorem legalWordsByFields : Obligations.LegalWordsByFields := by
  refine ⟨fun cw => ?_, unassigned_op_iff, by decide +kernel, fun cw hd => ?_, fun s cw inp rest hin hf hnone => ?_⟩
  · constructor
    · rintro ⟨i, hd⟩
      obtain ⟨row, hrow, hfields, -⟩ := decode_eq_ok_iff.mp hd
      exact ⟨row, hrow, hfields⟩
    · rintro ⟨row, hrow, hfields⟩
      exact ⟨row.build cw, decode_eq_ok_iff.mpr ⟨row, hrow, hfields, rfl⟩⟩
  · obtain ⟨-, hword⟩ := encodeOfDecode cw .nop hd
    exact hword.symm
  · cases hd : decode cw with
    | ok i => exact absurd ⟨i, hd⟩ hnone
    | error e =>
      obtain ⟨hhalted, -⟩ | ⟨-, hfault⟩ := Machine.illegalCommand_cases s
      · rw [hf] at hhalted; cases hhalted
      · rw [Machine.step_of_illegal hin hd, hfault, Machine.State.respond, Machine.State.recordFault,
          Machine.State.cw_of_transaction hin]
        simp [hin, Machine.FaultCode.code]

/-- Settles O1. -/
theorem wordsOfTheSpecDecode : Obligations.WordsOfTheSpecDecode := by
  unfold Obligations.WordsOfTheSpecDecode
  decide

end Sys2Proof.Laws
end

section
/-! What a transaction answers (R82): every step has an outcome, the effect of a command leaves the host's events and
the answers already given alone, and its output has the length `n_out`. -/

namespace Sys2Proof.Machine

/-- Every command has a next state (R250). -/
theorem exec_total (i : Instr) (s : State) : ∃ t, exec i s = .next t := by
  obtain ⟨-, -, he⟩ | ⟨-, -, he⟩ | ⟨f, -, -, -, he⟩ | ⟨s', out, -, -, -, he⟩ := exec_cases i s <;> exact ⟨_, he⟩

/-- A transaction is processed to a next state, its word legal or not (R250). -/
theorem step_transaction_total {s : State} {cw : CommandWord} {inp : List Byte} {rest : List HostEvent}
    (hin : s.inputs = .transaction cw inp :: rest) : ∃ t, step s = .next t := by
  cases hd : decode cw with
  | ok i => rw [step_of_decoded hin hd]; exact exec_total i s
  | error e =>
    rw [step_of_illegal hin hd]
    obtain ⟨-, he⟩ | ⟨-, he⟩ := illegalCommand_cases s <;> exact ⟨_, he⟩

/-- The effect of a command touches neither the host's events nor the answers given (R70). -/
theorem port_of_bodyOf {i : Instr} {s s' : State} {out : List Byte} (h : bodyOf i s = .ok (s', out)) :
    s'.inputs = s.inputs ∧ s'.responses = s.responses := by
  obtain ⟨rfl, -⟩ | ⟨rfl, -⟩ | ⟨rd, v, rfl, -⟩ | ⟨A, B, rfl, -⟩ | ⟨KEY, rfl, -⟩ | ⟨rfl, -⟩ | ⟨rfl, -⟩ | ⟨rfl, -⟩ |
    ⟨rfl, -⟩ := bodyOf_ok h
  case inr.inr.inl => exact ⟨s.setReg_inputs rd v, s.setReg_responses rd v⟩
  all_goals exact ⟨rfl, rfl⟩

/-- Registers 0 to 4 are 32 bits wide, 5 and 6 are words (R28, R76). -/
theorem controlRegBytes_length {s : State} {idx : Nat} {reg : ControlReg} (h : controlReg idx = .ok reg) :
    (s.controlRegBytes reg).length = nOut s.cfg (.crd idx) := by
  match idx, h with
  | 0, h | 1, h | 2, h | 3, h | 4, h => cases h; rfl
  | 5, h | 6, h => cases h; exact toBytes_length _
  | k + 7, h => cases h

/-- The output of a command that executes has the length R76 gives. -/
theorem length_of_bodyOf {i : Instr} {s s' : State} {out : List Byte} (h : bodyOf i s = .ok (s', out)) :
    out.length = nOut s.cfg i := by
  cases i <;> simp only [bodyOf, afterCheck_ok, Except.ok.injEq, Prod.mk.injEq] at h
  case crd idx => obtain ⟨reg, hreg, -, rfl⟩ := h; exact controlRegBytes_length hreg
  case wst rs1 => obtain ⟨-, rfl⟩ := h; exact toBytes_length _
  case blkst => obtain ⟨-, rfl⟩ := h; simp [nOut, Config.u, Nat.two_mul]
  case srd idx => obtain ⟨-, -, v, -, -, rfl⟩ := h; exact toBytes_length v
  case lrd idx => obtain ⟨-, -, v, -, -, rfl⟩ := h; exact toBytes_length v
  case linit | mix | expand | enc | dec => obtain ⟨-, -, -, rfl⟩ := h; rfl
  case smv rd idx => obtain ⟨-, -, -, -, -, rfl⟩ := h; rfl
  all_goals obtain ⟨-, rfl⟩ := h; rfl

theorem FaultCode.Raised.code_mem {f : FaultCode} (h : f.Raised) :
    f.code ∈ ([0x01, 0x02, 0x03, 0x04, 0x05, 0x08] : List (BitVec 8)) := by
  obtain ⟨hb, hs⟩ := h
  cases f
  case boundViolation => exact absurd rfl hb
  case sizeMismatch => exact absurd rfl hs
  all_goals decide

/-- Settles O9, by the ends of a step. -/
theorem oneResponseWithALegalCode : Obligations.OneResponseWithALegalCode := by
  intro s cw inp rest hin
  have hcw := State.cw_of_transaction hin
  have htail : s.inputs.tail = rest := by rw [hin, List.tail_cons]
  obtain ⟨t, ht⟩ := step_transaction_total hin
  rw [ht]
  cases stepEnd_of_step ht with
  | idle hnone => rw [hnone] at hin; cases hin
  | reset rest' hreset => rw [hreset] at hin; cases hin
  | refused hf =>
    exact ⟨_, 0x80, [], rfl, rfl, htail, rfl, .inr (.inr ⟨rfl, rfl, hf, by rw [← htail]; rfl⟩)⟩
  | faulted f hf hr =>
    exact ⟨_, f.code, [], rfl, rfl, htail, rfl, .inr (.inl ⟨hr.code_mem, rfl, hf, rfl, rfl, hcw⟩)⟩
  | executed i s' out hd hruns hb =>
    obtain ⟨hinputs, hresponses⟩ := port_of_bodyOf hb
    refine ⟨_, 0x00, out, rfl, (writesOnlyItsOwn_of_bodyOf hb).cfg_eq, ?_, ?_,
      .inl ⟨rfl, i, ?_, length_of_bodyOf hb, ?_⟩⟩
    · rw [State.respond_inputs, hinputs, htail]
    · rw [State.respond_responses, hresponses]; rfl
    · rw [← hcw, hd]
    · obtain hi | hi := eq_or_ne i .srst
      · exact .inr hi
      · exact .inl (faultRecord_of_bodyOf hb hi).1

end Sys2Proof.Machine
end

section
/-! The pseudo-instructions as runs (R81): a transaction that issues a well-formed command to a running engine runs
the body of that command, and an expansion is one such transaction after another. -/

namespace Sys2Proof.Machine

/-- A run that begins with a well-formed command, issued to a running engine with a payload of the right length, is
the run from the effect of that command (R70, R83 step 6). -/
theorem run_issue {s s' : State} {inp out : List Byte} {rest : List HostEvent} {k : Nat}
    {x : Host.Outcome State Fault Refusal} (i : Instr) (hin : s.inputs = issue (i, inp) :: rest) (hwf : i.WellFormed)
    (hf : s.FAULT = false) (hl : inp.length = nIn s.cfg i) (hb : bodyOf i s = .ok (s', out))
    (hrun : core.run k (s'.respond rcOK out) = x) : core.run (k + 1) s = x := by
  have hstep : step s = .next (s'.respond rcOK out) := by
    rw [step_of_decoded hin (Laws.decodeOfEncode i hwf), exec_eq_command]
    exact command_done hf (by rw [State.payload_of_transaction hin, hl]) hb
  exact (core_run_succ k hstep).trans hrun

/-! ## Bodies whose checks pass -/

theorem bodyOf_linit_of_keyLoaded {s : State} (h : s.KL = true) :
    bodyOf .linit s = .ok ({ s with L := linit s.cfg s.KEY, LST := .init }, []) :=
  afterCheck_ok.mpr ⟨(), requireKey_ok.mpr h, rfl⟩

theorem bodyOf_expand_of_keyLoaded {s : State} (h : s.KL = true) :
    bodyOf .expand s =
      .ok ({ s with L := (schedule s.cfg s.KEY).1, S := (schedule s.cfg s.KEY).2, LST := .mixed, SST := .mixed }, []) :=
  afterCheck_ok.mpr ⟨(), requireKey_ok.mpr h, rfl⟩

theorem bodyOf_mix_of_initialised {s : State} (hl : s.LST = .init) (hs : s.SST = .init) :
    bodyOf .mix s =
      .ok ({ s with L := (mix s.cfg s.L s.S).1, S := (mix s.cfg s.L s.S).2, LST := .mixed, SST := .mixed }, []) :=
  afterCheck_ok.mpr ⟨(), requireInitialisedTables_ok.mpr ⟨hl, hs⟩, rfl⟩

theorem bodyOf_enc_of_completed {s : State} (h : s.SST = .mixed) :
    bodyOf .enc s = .ok ({ s with A := (encrypt s.S s.A s.B).1, B := (encrypt s.S s.A s.B).2 }, []) :=
  afterCheck_ok.mpr ⟨(), requireCompletedSchedule_ok.mpr h, rfl⟩

theorem bodyOf_dec_of_completed {s : State} (h : s.SST = .mixed) :
    bodyOf .dec s = .ok ({ s with A := (decrypt s.S s.A s.B).1, B := (decrypt s.S s.A s.B).2 }, []) :=
  afterCheck_ok.mpr ⟨(), requireCompletedSchedule_ok.mpr h, rfl⟩

/-- Settles O43: all three sequences end with the two tables of `schedule`, whose definition is the pass over the two
init phases. -/
theorem expandEqualsTheThreePhases : Obligations.ExpandEqualsTheThreePhases := by
  intro s rest hf hk
  refine ⟨{ s with L := (schedule s.cfg s.KEY).1, S := (schedule s.cfg s.KEY).2, LST := .mixed, SST := .mixed },
    ?_, ?_, ?_⟩
  · exact run_issue .expand rfl rfl hf rfl (bodyOf_expand_of_keyLoaded hk) rfl
  · refine run_issue .linit rfl rfl hf rfl (bodyOf_linit_of_keyLoaded hk) ?_
    refine run_issue .sinit rfl rfl hf rfl rfl ?_
    refine run_issue .mix rfl rfl hf rfl (bodyOf_mix_of_initialised rfl rfl) ?_
    simp [Host.Core.run, State.respond, schedule, rcOK, Pseudo.events, Pseudo.commands]
  · refine run_issue .sinit rfl rfl hf rfl rfl ?_
    refine run_issue .linit rfl rfl hf rfl (bodyOf_linit_of_keyLoaded hk) ?_
    refine run_issue .mix rfl rfl hf rfl (bodyOf_mix_of_initialised rfl rfl) ?_
    simp [Host.Core.run, State.respond, schedule, rcOK]

/-! ## CLR and MOV -/

/-- The exclusive or of a register with itself clears it (R81). -/
theorem bodyOf_xor_self (rd : Reg) (s : State) : bodyOf (.xor rd rd rd) s = .ok (s.setReg rd 0, []) := by
  simp [bodyOf, wordXor_eq]

/-- Adding a register to one that is clear copies it (R81). -/
theorem bodyOf_add_of_clear {s : State} {rd : Reg} (h : s.reg rd = 0) (rs : Reg) :
    bodyOf (.add rd rd rs) s = .ok (s.setReg rd (s.reg rs), []) := by
  simp [bodyOf, wordAdd_eq, h]

/-- Settles O50. -/
theorem clrAndMovPseudoInstructions : Obligations.ClrAndMovPseudoInstructions := by
  intro s rest hf
  refine ⟨fun rd => ?_, fun rd rs hne => ?_, fun rd => ?_⟩
  · refine run_issue (.xor rd rd rd) rfl rfl hf rfl (bodyOf_xor_self rd _) ?_
    cases rd <;> rfl
  · rw [Pseudo.events, Pseudo.commands, if_neg hne]
    refine run_issue (.xor rd rd rd) rfl rfl hf rfl (bodyOf_xor_self rd _) ?_
    refine run_issue (inp := []) (rest := rest) (.add rd rd rs) ?_ rfl ?_ rfl (bodyOf_add_of_clear ?_ rs) ?_
    · cases rd <;> rfl
    · cases rd <;> exact hf
    · cases rd <;> rfl
    · cases rd <;> cases rs
      case A.A => exact absurd rfl hne
      case B.B => exact absurd rfl hne
      case A.B => simp [Host.Core.run, State.respond, State.setReg, State.reg, rcOK]
      case B.A => simp [Host.Core.run, State.respond, State.setReg, State.reg, rcOK]
  · simp [Pseudo.events, Pseudo.commands]

/-! ## RDSTAT, REKEY, ENCBLK and DECBLK -/

/-- The four bytes of a control register are those of a 32-bit word (R54, R121). -/
theorem registerBytes_eq_toBytes (v : BitVec 32) : registerBytes v = toBytes (w := 32) v := by
  have hbyte (m : Nat) : v.extractLsb' (8 * m) 8 = wordByte v m := by
    apply BitVec.eq_of_toNat_eq
    rw [extractLsb'_toNat_eq_div, wordByte_toNat]
  calc registerBytes v
      = (List.range 4).map fun m => v.extractLsb' (8 * m) 8 := rfl
    _ = (List.range 4).map fun m => wordByte v m := by simp only [hbyte]

/-- A block payload is A's bytes, then B's (R52, R125). -/
theorem bodyOf_blkld_of_append {s : State} {bytesA bytesB : List Byte} (hp : s.payload = bytesA ++ bytesB)
    (hA : bytesA.length = s.cfg.u) :
    bodyOf .blkld s = .ok ({ s with A := fromBytes s.cfg.w bytesA, B := fromBytes s.cfg.w bytesB }, []) := by
  rw [bodyOf, hp, ← hA, List.take_left, List.drop_left]

/-- BLKLD, a cipher command, BLKST (R81): with a completed schedule the result is left in A and B and returned. The
command is ENC with `encrypt` or DEC with `decrypt`. -/
theorem run_block {i : Instr}
    {cipher : {cfg : Config} → Vector (Word cfg.w) cfg.t → Word cfg.w → Word cfg.w → Word cfg.w × Word cfg.w}
    (hwf : i.WellFormed) (hn : ∀ cfg, nIn cfg i = 0)
    (hi : ∀ {t : State}, t.SST = .mixed →
      bodyOf i t = .ok ({ t with A := (cipher t.S t.A t.B).1, B := (cipher t.S t.A t.B).2 }, []))
    {s : State} {bytesA bytesB : List Byte} (rest : List HostEvent) (hf : s.FAULT = false)
    (hA : bytesA.length = s.cfg.u) (hB : bytesB.length = s.cfg.u) (hsst : s.SST = .mixed) :
    ∃ x, x = cipher s.S (fromBytes s.cfg.w bytesA) (fromBytes s.cfg.w bytesB) ∧
      core.run 3 { s with inputs := [(.blkld, bytesA ++ bytesB), (i, []), (.blkst, [])].map issue ++ rest } =
        .next { s with A := x.1, B := x.2, inputs := rest
                       responses := s.responses ++ [⟨0x00, []⟩, ⟨0x00, []⟩, ⟨0x00, toBytes x.1 ++ toBytes x.2⟩] } := by
  have hlen : (bytesA ++ bytesB).length = 2 * s.cfg.u := by rw [List.length_append, hA, hB, Nat.two_mul]
  refine ⟨_, rfl, ?_⟩
  refine run_issue .blkld rfl rfl hf hlen (bodyOf_blkld_of_append rfl hA) ?_
  refine run_issue i rfl hwf hf (hn _).symm (hi hsst) ?_
  refine run_issue .blkst rfl rfl hf rfl rfl ?_
  simp [Host.Core.run, State.respond, rcOK]

/-- Settles O51. -/
theorem keyAndBlockPseudoInstructions : Obligations.KeyAndBlockPseudoInstructions := by
  intro s rest hf
  refine ⟨?_, fun key hkey => ⟨memWriteKey s.cfg.b key, memWriteKey_toList hkey, ?_⟩,
    fun bytesA bytesB hA hB hsst => ⟨?_, ?_⟩⟩
  · refine run_issue (.crd 0) rfl rfl hf rfl rfl ?_
    rw [State.controlRegBytes, registerBytes_eq_toBytes]
    rfl
  · refine run_issue .keyld rfl rfl hf hkey rfl ?_
    refine run_issue .expand rfl rfl hf rfl (bodyOf_expand_of_keyLoaded rfl) ?_
    simp [Host.Core.run, State.respond, State.payload, rcOK, issue, Pseudo.events, Pseudo.commands]
  · exact run_block rfl (fun _ => rfl) bodyOf_enc_of_completed rest hf hA hB hsst
  · exact run_block rfl (fun _ => rfl) bodyOf_dec_of_completed rest hf hA hB hsst

end Sys2Proof.Machine
end

section
/-! The functions of the model are the listings of the spec: the two init phases (R143, R145), the mixing pass (R147),
encryption and decryption (R171, R172), each the same loop on lists. -/

namespace Sys2Proof.Machine

/-! ## Vectors as the lists the listings work on -/

theorem toList_getD_of_lt {α : Type} {n k : Nat} (v : Vector α n) (d : α) (h : k < n) : v.toList.getD k d = v[k] := by
  simp [List.getD_eq_getElem?_getD, h]

theorem asTable_toList {w n : Nat} (v : Vector (Word w) n) : asTable n v.toList = v := by
  apply Vector.ext
  intro k hk
  rw [asTable, Vector.getElem_ofFn]
  exact toList_getD_of_lt v 0 hk

/-! ## The init phases (R143, R145) -/

/-- A byte of KEY with the zeros beyond it is an entry of the list with that default (R63). -/
theorem keyByte_eq_getD {b : Nat} (KEY : Vector Byte b) (k : Nat) : keyByte KEY k = KEY.toList.getD k 0 := by
  rcases Nat.lt_or_ge k b with h | h
  · rw [keyByte_of_lt h, toList_getD_of_lt KEY 0 h]
  · rw [keyByte_of_ge h, List.getD_eq_default _ _ (by simpa using h)]

/-- The little-endian number of a string given byte by byte is the sum of R120. -/
theorem leValue_map_range (n : Nat) (byte : Nat → Byte) :
    leValue ((List.range n).map byte) = ((List.range n).map fun m => (byte m).toNat * 2 ^ (8 * m)).sum := by
  induction n generalizing byte with
  | zero => rfl
  | succ n ih =>
    have hshift (m : Nat) :
        (byte (m + 1)).toNat * 2 ^ (8 * (m + 1)) = 2 ^ 8 * ((byte (m + 1)).toNat * 2 ^ (8 * m)) := by
      ring
    calc leValue ((List.range (n + 1)).map byte)
        = (byte 0).toNat + 2 ^ 8 * leValue ((List.range n).map fun m => byte (m + 1)) := by
          rw [List.range_succ_eq_map, List.map_cons, List.map_map, leValue_cons]; rfl
      _ = (byte 0).toNat + ((List.range n).map fun m => (byte (m + 1)).toNat * 2 ^ (8 * (m + 1))).sum := by
          simp only [ih, hshift, List.sum_map_mul_left]
      _ = ((List.range (n + 1)).map fun m => (byte m).toNat * 2 ^ (8 * m)).sum := by
          simp [List.range_succ_eq_map, Function.comp_def]

theorem linit_toList (cfg : Config) (key : Vector Byte cfg.b) :
    (linit cfg key).toList = listingLinit cfg key.toList := by
  apply List.ext_getElem
  · simp [listingLinit]
  · intro k hk hk'
    simp only [listingLinit, List.getElem_map, List.getElem_range, Vector.getElem_toList, linit_getElem, fromBytes,
      keyChunk, memReadKey, leValue_map_range, keyByte_eq_getD]

/-- The closed form of R145. -/
theorem sinitWord_eq (cfg : Config) (i : Nat) :
    sinitWord cfg i = BitVec.ofNat cfg.w (cfg.P.toNat + i * cfg.Q.toNat) := by
  induction i with
  | zero => simp
  | succ i ih =>
    apply BitVec.eq_of_toNat_eq
    rw [sinitWord_succ, ih, wordAdd_eq]
    simp [Nat.add_mul, Nat.add_assoc]

theorem sinit_toList (cfg : Config) : (sinit cfg).toList = listingSinit cfg := by
  apply List.ext_getElem
  · simp [listingSinit]
  · intro i hi hi'
    simp [listingSinit, sinitWord_eq]

/-! ## The mixing pass (R147) -/

section Mixing

variable (cfg : Config) (L : Vector (Word cfg.w) cfg.c) (S : Vector (Word cfg.w) cfg.t)

/-- Step 3 of an iteration (R147). -/
theorem mixIteration_i {cfg : Config} (m : MixState cfg) : (mixIteration m).i.val = (m.i.val + 1) % cfg.t := rfl

/-- See `mixIteration_i`. -/
theorem mixIteration_j {cfg : Config} (m : MixState cfg) : (mixIteration m).j.val = (m.j.val + 1) % cfg.c := rfl

theorem mixAfter_indices (n : Nat) :
    (mixAfter cfg L S n).i.val = n % cfg.t ∧ (mixAfter cfg L S n).j.val = n % cfg.c := by
  induction n with
  | zero => exact ⟨(Nat.zero_mod _).symm, (Nat.zero_mod _).symm⟩
  | succ n ih =>
    obtain ⟨hi, hj⟩ := ih
    rw [mixAfter_succ, mixIteration_i, mixIteration_j, hi, hj, Nat.mod_add_mod, Nat.mod_add_mod]
    exact ⟨rfl, rfl⟩

/-- What the mixing pass holds, as the listing holds it. -/
def MixState.listed {cfg : Config} (m : MixState cfg) :
    List (Word cfg.w) × List (Word cfg.w) × Word cfg.w × Word cfg.w :=
  (m.S.toList, m.L.toList, m.MA, m.MB)

/-- One iteration is the loop body of the listing at the indices the pass holds (R147). -/
theorem listed_mixIteration {cfg : Config} (m : MixState cfg) {n : Nat} (hi : m.i.val = n % cfg.t)
    (hj : m.j.val = n % cfg.c) : (mixIteration m).listed = listingMixBody cfg.t cfg.c m.listed n := by
  have hS : m.S.toList.getD m.i.val 0 = m.S[m.i] := toList_getD_of_lt m.S 0 m.i.isLt
  have hL : m.L.toList.getD m.j.val 0 = m.L[m.j] := toList_getD_of_lt m.L 0 m.j.isLt
  simp only [MixState.listed, mixIteration, listingMixBody, ← hi, ← hj, hS, hL, wordAdd_eq, rotlBy_eq, rotl_eq,
    Vector.toList_set]

theorem listed_mixAfter (n : Nat) :
    (mixAfter cfg L S n).listed = (List.range n).foldl (listingMixBody cfg.t cfg.c) (S.toList, L.toList, 0, 0) := by
  induction n with
  | zero => rfl
  | succ n ih =>
    obtain ⟨hi, hj⟩ := mixAfter_indices cfg L S n
    rw [mixAfter_succ, listed_mixIteration _ hi hj, ih, List.range_succ, List.foldl_append, List.foldl_cons,
      List.foldl_nil]

theorem listingMix_eq : listingMix cfg L.toList S.toList = ((mix cfg L S).1.toList, (mix cfg L S).2.toList) := by
  rw [listingMix, ← listed_mixAfter cfg L S]
  rfl

end Mixing

/-! ## The cipher (R171, R172) -/

section Cipher

variable {cfg : Config} (S : Vector (Word cfg.w) cfg.t)

/-- The loop body of `encrypt` for round `i` (R171). -/
def listingEncRound {w : Nat} (S : List (Word w)) (x : Word w × Word w) (i : Nat) : Word w × Word w :=
  let A := (x.1 ^^^ x.2).rotateLeft x.2.toNat + S.getD (2 * i) 0
  let B := (x.2 ^^^ A).rotateLeft A.toNat + S.getD (2 * i + 1) 0
  (A, B)

/-- The loop body of `decrypt` for round `i` (R172). -/
def listingDecRound {w : Nat} (S : List (Word w)) (x : Word w × Word w) (i : Nat) : Word w × Word w :=
  let B := (x.2 - S.getD (2 * i + 1) 0).rotateRight x.1.toNat ^^^ x.1
  let A := (x.1 - S.getD (2 * i) 0).rotateRight B.toNat ^^^ B
  (A, B)

theorem encRound_eq_listing (i : Nat) (h : i ≤ cfg.r) (x : Word cfg.w × Word cfg.w) :
    encRound S i h x = listingEncRound S.toList x i := by
  have hodd := round_index_lt h
  simp only [encRound, listingEncRound, toList_getD_of_lt S 0 hodd, toList_getD_of_lt S 0 (Nat.lt_of_succ_lt hodd),
    wordAdd_eq, wordXor_eq, rotl_eq]

theorem decRound_eq_listing (i : Nat) (h : i ≤ cfg.r) (x : Word cfg.w × Word cfg.w) :
    decRound S i h x = listingDecRound S.toList x i := by
  have hodd := round_index_lt h
  simp only [decRound, listingDecRound, toList_getD_of_lt S 0 hodd, toList_getD_of_lt S 0 (Nat.lt_of_succ_lt hodd),
    wordSub_eq, wordXor_eq, rotr_eq]

theorem encAfter_eq_foldl (x : Word cfg.w × Word cfg.w) (k : Nat) (h : k ≤ cfg.r) :
    encAfter S x k h =
      (List.range' 1 k).foldl (listingEncRound S.toList) (x.1 + S.toList.getD 0 0, x.2 + S.toList.getD 1 0) := by
  induction k with
  | zero =>
    rw [encAfter_zero, wordAdd_eq, wordAdd_eq, toList_getD_of_lt S 0 cfg.t_pos, toList_getD_of_lt S 0 cfg.one_lt_t]
    rfl
  | succ k ih =>
    rw [encAfter_succ, ih, encRound_eq_listing, List.range'_1_concat, List.foldl_append, List.foldl_cons,
      List.foldl_nil, Nat.add_comm 1 k]

theorem encrypt_eq_listing (A B : Word cfg.w) : encrypt S A B = listingEncrypt cfg.r S.toList A B :=
  encAfter_eq_foldl S (A, B) cfg.r (Nat.le_refl _)

theorem decFrom_eq_foldl (k : Nat) (h : k ≤ cfg.r) (x : Word cfg.w × Word cfg.w) :
    decFrom S k h x =
      (((List.range' 1 k).reverse.foldl (listingDecRound S.toList) x).1 - S.toList.getD 0 0,
        ((List.range' 1 k).reverse.foldl (listingDecRound S.toList) x).2 - S.toList.getD 1 0) := by
  induction k generalizing x with
  | zero =>
    rw [decFrom_zero, wordSub_eq, wordSub_eq, toList_getD_of_lt S 0 cfg.t_pos, toList_getD_of_lt S 0 cfg.one_lt_t]
    rfl
  | succ k ih =>
    rw [decFrom_succ, ih, decRound_eq_listing, List.range'_1_concat, List.reverse_concat, List.foldl_cons,
      Nat.add_comm 1 k]

theorem decrypt_eq_listing (A B : Word cfg.w) : decrypt S A B = listingDecrypt cfg.r S.toList A B :=
  decFrom_eq_foldl S cfg.r (Nat.le_refl _) (A, B)

end Cipher

end Sys2Proof.Machine
end

section
/-! A step is the transaction function of R83: the body of a command makes the listed checks and then the listed
effect, and the frame around it makes the other steps in the listed order. -/

namespace Sys2Proof.Machine

/-- The fault of steps 4 and 5 of R83: the state precondition's, else the index's. -/
def firstFault (s : State) (i : Instr) : Option FaultCode := (preconditionFault s i).or (indexFault s i)

/-! ## The effects that the listings give another form -/

section Effects

variable (s : State) (inp : List Byte)

theorem commandEffect_linit :
    commandEffect s inp .linit = ({ s with L := linit s.cfg s.KEY, LST := .init }, []) := by
  rw [commandEffect, ← linit_toList, asTable_toList]

theorem commandEffect_sinit : commandEffect s inp .sinit = ({ s with S := sinit s.cfg, SST := .init }, []) := by
  rw [commandEffect, ← sinit_toList, asTable_toList]

theorem commandEffect_mix :
    commandEffect s inp .mix =
      ({ s with L := (mix s.cfg s.L s.S).1, S := (mix s.cfg s.L s.S).2, LST := .mixed, SST := .mixed }, []) := by
  simp only [commandEffect, listingMix_eq, asTable_toList]

theorem commandEffect_expand :
    commandEffect s inp .expand =
      ({ s with L := (schedule s.cfg s.KEY).1, S := (schedule s.cfg s.KEY).2, LST := .mixed, SST := .mixed }, []) := by
  simp only [commandEffect, ← linit_toList, ← sinit_toList, listingMix_eq, asTable_toList, schedule]

theorem commandEffect_enc :
    commandEffect s inp .enc =
      ({ s with A := (encrypt s.S s.A s.B).1, B := (encrypt s.S s.A s.B).2 }, []) := by
  simp only [commandEffect, encrypt_eq_listing]

theorem commandEffect_dec :
    commandEffect s inp .dec =
      ({ s with A := (decrypt s.S s.A s.B).1, B := (decrypt s.S s.A s.B).2 }, []) := by
  simp only [commandEffect, decrypt_eq_listing]

end Effects

/-! ## The body of a command (R83 steps 4 to 6) -/

/-- CRD of a register that exists returns what R192 lists. -/
theorem bodyOf_crd_of_le {s : State} {idx : Nat} (h : idx ≤ 6) :
    bodyOf (.crd idx) s = .ok (commandEffect s s.payload (.crd idx)) := by
  interval_cases idx <;>
    simp only [bodyOf, controlReg, afterCheck, State.controlRegBytes, commandEffect, registerBytes_eq_toBytes]

/-- A command with a state precondition: the check, then the effect. -/
theorem body_of_precondition {α : Type} (met : Prop) [Decidable met] (f : FaultCode) (effect : α) :
    (afterCheck (if met then .ok () else .error f) fun _ => .ok effect) =
      ((if met then none else some f).or none).elim (.ok effect) Except.error := by
  by_cases h : met <;> simp [afterCheck, h]

/-- A command that reads an entry of a table: the check of the table's state, then that of the index. -/
theorem body_of_table {α : Type} {w n : Nat} (state : TableState) (table : Vector (Word w) n) (idx : Nat)
    (use : Word w → α) :
    (afterCheck (requireWritten state) fun _ => afterCheck (tableElement table idx) fun v => .ok (use v)) =
      ((if state = .empty then some .tableNotReady else none).or (if idx < n then none else some .indexRange)).elim
        (.ok (use (table.toList.getD idx 0))) Except.error := by
  unfold requireWritten tableElement
  by_cases hs : state = .empty
  · simp [hs, afterCheck]
  · by_cases hidx : idx < n
    · rw [toList_getD_of_lt table 0 hidx]
      simp [hs, hidx, afterCheck]
    · simp [hs, hidx, afterCheck]

/-- The body of a command makes the listed checks, and if none raises a fault the listed effect. -/
theorem bodyOf_eq_listing (i : Instr) (s : State) :
    bodyOf i s = (firstFault s i).elim (.ok (commandEffect s s.payload i)) Except.error := by
  cases i
  case crd idx =>
    by_cases h : idx ≤ 6
    · simp [bodyOf_crd_of_le h, firstFault, preconditionFault, indexFault, h]
    · simp [bodyOf, controlReg_of_gt (Nat.not_le.mp h), afterCheck, firstFault, preconditionFault, indexFault, h]
  case sinit => rw [commandEffect_sinit]; rfl
  case linit => rw [commandEffect_linit]; exact body_of_precondition _ _ _
  case expand => rw [commandEffect_expand]; exact body_of_precondition _ _ _
  case mix => rw [commandEffect_mix]; exact body_of_precondition _ _ _
  case enc => rw [commandEffect_enc]; exact body_of_precondition _ _ _
  case dec => rw [commandEffect_dec]; exact body_of_precondition _ _ _
  case srd idx => exact body_of_table s.SST s.S idx fun v => (s, toBytes v)
  case lrd idx => exact body_of_table s.LST s.L idx fun v => (s, toBytes v)
  case smv rd idx => exact body_of_table s.SST s.S idx fun v => (s.setReg rd v, [])
  case add => rw [bodyOf, wordAdd_eq]; rfl
  case sub => rw [bodyOf, wordSub_eq]; rfl
  case rotl => rw [bodyOf, rotl_eq]; rfl
  case rotr => rw [bodyOf, rotr_eq]; rfl
  all_goals rfl

theorem firstFault_of_bodyOf_error {i : Instr} {s : State} {f : FaultCode} (h : bodyOf i s = .error f) :
    firstFault s i = some f := by
  rw [bodyOf_eq_listing] at h
  cases hf : firstFault s i <;> rw [hf] at h <;> cases h
  rfl

theorem commandEffect_of_bodyOf_ok {i : Instr} {s s' : State} {out : List Byte} (h : bodyOf i s = .ok (s', out)) :
    firstFault s i = none ∧ commandEffect s s.payload i = (s', out) := by
  rw [bodyOf_eq_listing] at h
  cases hf : firstFault s i <;> rw [hf] at h
  · exact ⟨rfl, Except.ok.inj h⟩
  · cases h

/-! ## The steps of R83 in order -/

section Transaction

variable {s : State} {cw : CommandWord} {inp : List Byte} {i : Instr}

/-- Step 1, for a word that decodes. -/
theorem transaction_refused (hd : decode cw = .ok i) (hf : s.FAULT = true)
    (hx : ¬ (runsWhenHalted i = true ∧ inp = [])) : transaction s cw inp = (s, ⟨0x80, []⟩) := by
  simp only [transaction, hd, List.length_eq_zero_iff]
  rw [if_pos ⟨hf, hx⟩]

/-- Step 3. -/
theorem transaction_badLength (hd : decode cw = .ok i) (hr : s.FAULT = true → runsWhenHalted i = true ∧ inp = [])
    (hl : inp.length ≠ nIn s.cfg i) : transaction s cw inp = transactionFault s cw .payloadLength := by
  simp only [transaction, hd, List.length_eq_zero_iff]
  rw [if_neg fun h => h.2 (hr h.1), if_pos hl]

/-- Steps 4 to 6. -/
theorem transaction_checked (hd : decode cw = .ok i) (hr : s.FAULT = true → runsWhenHalted i = true ∧ inp = [])
    (hl : inp.length = nIn s.cfg i) :
    transaction s cw inp = (firstFault s i).elim ((commandEffect s inp i).1, ⟨0x00, (commandEffect s inp i).2⟩)
      (transactionFault s cw) := by
  simp only [transaction, hd, List.length_eq_zero_iff]
  rw [if_neg fun h => h.2 (hr h.1), if_neg (not_not.mpr hl), firstFault]
  cases preconditionFault s i <;> cases indexFault s i <;> rfl

end Transaction

/-- The listed transaction in the model's terms: the state it leaves, its answer given and the event taken. -/
theorem next_transactionFault {s : State} {cw : CommandWord} {inp : List Byte} {rest : List HostEvent}
    (hin : s.inputs = .transaction cw inp :: rest) (f : FaultCode) :
    (s.recordFault f).respond f.code [] =
      { (transactionFault s cw f).1 with inputs := rest, responses := s.responses ++ [(transactionFault s cw f).2] } := by
  simp [State.respond, State.recordFault, transactionFault, State.cw_of_transaction hin, hin]

/-- Settles O10, by the ends of a command: each is the listed step that ends the transaction. -/
theorem stepFollowsTheListedOrderOfChecks : Obligations.StepFollowsTheListedOrderOfChecks := by
  intro s cw inp rest hin
  have hinp := State.payload_of_transaction hin
  have htail : s.inputs.tail = rest := by rw [hin, List.tail_cons]
  cases hd : decode cw with
  | error e =>
    rw [step_of_illegal hin hd, transaction, hd]
    obtain ⟨hf, he⟩ | ⟨hf, he⟩ := illegalCommand_cases s
    · rw [he, if_pos hf, ← htail]; rfl
    · rw [he, if_neg (by simp [hf]), next_transactionFault hin]
  | ok i =>
    rw [step_of_decoded hin hd]
    obtain ⟨hf, hx, he⟩ | ⟨hr, hl, he⟩ | ⟨f, hr, hl, hb, he⟩ | ⟨s', out, hr, hl, hb, he⟩ := exec_cases i s
    · rw [he, transaction_refused hd hf (hinp ▸ hx), ← htail]; rfl
    · rw [he, transaction_badLength hd (hinp ▸ hr) (hinp ▸ hl), next_transactionFault hin]
    · rw [he, transaction_checked hd (hinp ▸ hr) (hinp ▸ hl), firstFault_of_bodyOf_error hb]
      exact congrArg _ (next_transactionFault hin f)
    · obtain ⟨hnone, heffect⟩ := commandEffect_of_bodyOf_ok hb
      obtain ⟨hinputs, hresponses⟩ := port_of_bodyOf hb
      rw [he, transaction_checked hd (hinp ▸ hr) (hinp ▸ hl), hnone, ← hinp, heffect, State.respond, hinputs, htail,
        hresponses]
      rfl

end Sys2Proof.Machine
end

section
/-! The word functions as R101 to R106 state them: the arithmetic on unbounded numbers, and the two rotates bit by bit.
The bit rules say which bit of the operand each bit of the result is, and every law of a rotate follows from them. -/

namespace Sys2Proof.Machine

variable {w : Nat}

/-! ## Addition, subtraction and exclusive or (R101 to R103) -/

theorem wordAdd_toNat (l r : Word w) : (wordAdd l r).toNat = (l.toNat + r.toNat) % 2 ^ w :=
  BitVec.toNat_ofNat _ _

theorem wordSub_toNat (l r : Word w) : (wordSub l r).toNat = (l.toNat + (2 ^ w - r.toNat)) % 2 ^ w := by
  rw [wordSub_eq, BitVec.toNat_sub, Nat.add_comm]

/-- The difference that does not borrow (R102). -/
theorem wordSub_toNat_of_le {l r : Word w} (h : r.toNat ≤ l.toNat) : (wordSub l r).toNat = l.toNat - r.toNat := by
  rw [wordSub_eq, BitVec.toNat_sub_of_le h]

/-- The difference that borrows (R102). -/
theorem wordSub_toNat_of_lt {l r : Word w} (h : l.toNat < r.toNat) :
    (wordSub l r).toNat = 2 ^ w + l.toNat - r.toNat := by
  have hr := r.isLt
  rw [wordSub_toNat, Nat.mod_eq_of_lt (by omega)]
  omega

/-- Settles O25: on the word functions as operations of bit vectors. -/
theorem addSubXorOnWords : Obligations.AddSubXorOnWords := by
  intro w l r m
  refine ⟨wordAdd_toNat l r, ?_, ?_, ?_, wordSub_toNat_of_le, wordSub_toNat_of_lt, ?_, ?_, ?_, ?_, ?_, ?_, ?_⟩
  · simp only [wordAdd_eq, BitVec.add_comm]
  · simp only [wordAdd_eq, BitVec.add_assoc]
  · exact (wordAdd_eq l 0).trans (BitVec.add_zero l)
  · exact (wordSub_eq l 0).trans (BitVec.sub_zero l)
  · exact (wordSub_eq l l).trans (BitVec.sub_self l)
  · exact fun k _ => BitVec.getLsbD_xor
  · exact BitVec.xor_comm l r
  · exact BitVec.xor_assoc l r m
  · exact BitVec.xor_zero
  · exact BitVec.xor_self

/-! ## The rotates bit by bit (R104, R105) -/

theorem rotlBy_toNat (l : Word w) (amount : Nat) :
    (rotlBy l amount).toNat =
      ((l.toNat <<< (amount % w)) ||| (l.toNat >>> (w - amount % w))) % 2 ^ w :=
  BitVec.toNat_ofNat _ _

theorem rotrBy_toNat (l : Word w) (amount : Nat) :
    (rotrBy l amount).toNat =
      ((l.toNat >>> (amount % w)) ||| (l.toNat <<< (w - amount % w))) % 2 ^ w :=
  BitVec.toNat_ofNat _ _

/-- Adding `k` and taking it off again, on the circle of `w` bit positions. -/
theorem add_mod_add_sub_mod {p k : Nat} (hp : p < w) (hk : k ≤ w) : ((p + k) % w + w - k) % w = p := by
  rw [Nat.add_sub_assoc hk, Nat.mod_add_mod, show p + k + (w - k) = p + w by omega, Nat.add_mod_right,
    Nat.mod_eq_of_lt hp]

/-- Taking `k` off and adding it again, on the circle of `w` bit positions. -/
theorem add_sub_mod_add_mod {p k : Nat} (hp : p < w) (hk : k ≤ w) : ((p + w - k) % w + k) % w = p := by
  rw [Nat.mod_add_mod, show p + w - k + k = p + w by omega, Nat.add_mod_right, Nat.mod_eq_of_lt hp]

/-- Bit `p` of a left rotation is the bit `k` places below, around the end. -/
theorem getLsbD_rotlBy (l : Word w) (amount : Nat) {p : Nat} (hp : p < w) :
    (rotlBy l amount).getLsbD p = l.getLsbD ((p + w - amount % w) % w) := by
  have hk : amount % w < w := Nat.mod_lt _ (by omega)
  rw [rotlBy_eq, BitVec.getLsbD_rotateLeft]
  by_cases h : p < amount % w
  · rw [Nat.mod_eq_of_lt (a := p + w - amount % w) (by omega), decide_eq_true h, cond_true]
    congr 1
    omega
  · rw [show p + w - amount % w = p - amount % w + w by omega, Nat.add_mod_right,
      Nat.mod_eq_of_lt (a := p - amount % w) (by omega), decide_eq_false h, cond_false, decide_eq_true hp, Bool.true_and]

/-- Bit `p` of a right rotation is the bit `k` places above, around the end. -/
theorem getLsbD_rotrBy (l : Word w) (amount : Nat) {p : Nat} (hp : p < w) :
    (rotrBy l amount).getLsbD p = l.getLsbD ((p + amount % w) % w) := by
  have hk : amount % w < w := Nat.mod_lt _ (by omega)
  rw [rotrBy_eq, BitVec.getLsbD_rotateRight]
  by_cases h : p < w - amount % w
  · rw [Nat.mod_eq_of_lt (a := p + amount % w) (by omega), decide_eq_true h, cond_true, Nat.add_comm]
  · rw [show p + amount % w = p - (w - amount % w) + w by omega, Nat.add_mod_right,
      Nat.mod_eq_of_lt (a := p - (w - amount % w)) (by omega), decide_eq_false h, cond_false, decide_eq_true hp,
      Bool.true_and]

/-- Settles O26: each bit rule, read at the place the bit moves to. -/
theorem rotatesMoveBits : Obligations.RotatesMoveBits := by
  intro w l amount p hp
  have hw : 0 < w := by omega
  have hk : amount.toNat % w ≤ w := (Nat.mod_lt _ hw).le
  refine ⟨?_, ?_, rotlBy_toNat l amount.toNat, rotrBy_toNat l amount.toNat⟩
  · rw [rotl, getLsbD_rotlBy l _ (Nat.mod_lt _ hw), add_mod_add_sub_mod hp hk]
  · rw [rotr, getLsbD_rotrBy l _ (Nat.mod_lt _ hw), add_sub_mod_add_mod hp hk]

/-! ## The laws of the unit (R106) -/

theorem wordSub_wordAdd_cancel (a b : Word w) : wordSub (wordAdd a b) b = a := by
  rw [wordAdd_eq, wordSub_eq, BitVec.add_sub_cancel]

theorem wordAdd_wordSub_cancel (a b : Word w) : wordAdd (wordSub a b) b = a := by
  rw [wordAdd_eq, wordSub_eq, BitVec.sub_add_cancel]

theorem wordXor_wordXor_cancel (a b : Word w) : wordXor (wordXor a b) b = a := by
  rw [wordXor_eq, wordXor_eq, BitVec.xor_assoc, BitVec.xor_self, BitVec.xor_zero]

theorem rotrBy_rotlBy (a : Word w) (amount : Nat) : rotrBy (rotlBy a amount) amount = a := by
  refine BitVec.eq_of_getLsbD_eq fun p hp => ?_
  have hw : 0 < w := by omega
  rw [getLsbD_rotrBy _ _ hp, getLsbD_rotlBy _ _ (Nat.mod_lt _ hw), add_mod_add_sub_mod hp (Nat.mod_lt _ hw).le]

theorem rotlBy_rotrBy (a : Word w) (amount : Nat) : rotlBy (rotrBy a amount) amount = a := by
  refine BitVec.eq_of_getLsbD_eq fun p hp => ?_
  have hw : 0 < w := by omega
  rw [getLsbD_rotlBy _ _ hp, getLsbD_rotrBy _ _ (Nat.mod_lt _ hw), add_sub_mod_add_mod hp (Nat.mod_lt _ hw).le]

theorem rotlBy_mod (a : Word w) (amount : Nat) : rotlBy a (amount % w) = rotlBy a amount := by
  rw [rotlBy, rotlBy, Nat.mod_mod]

theorem rotrBy_mod (a : Word w) (amount : Nat) : rotrBy a (amount % w) = rotrBy a amount := by
  rw [rotrBy, rotrBy, Nat.mod_mod]

/-- Rotating left by `k` is rotating right by the rest of the circle. -/
theorem rotlBy_eq_rotrBy (a : Word w) (amount : Nat) : rotlBy a amount = rotrBy a (w - amount % w) := by
  refine BitVec.eq_of_getLsbD_eq fun p hp => ?_
  have hk : amount % w < w := Nat.mod_lt _ (by omega)
  rw [getLsbD_rotlBy _ _ hp, getLsbD_rotrBy _ _ hp, Nat.add_mod_mod, Nat.add_sub_assoc hk.le]

theorem rotlBy_zero (a : Word w) : rotlBy a 0 = a := by
  refine BitVec.eq_of_getLsbD_eq fun p hp => ?_
  rw [getLsbD_rotlBy _ _ hp, Nat.zero_mod, Nat.sub_zero, Nat.add_mod_right, Nat.mod_eq_of_lt hp]

theorem rotrBy_zero (a : Word w) : rotrBy a 0 = a := by
  refine BitVec.eq_of_getLsbD_eq fun p hp => ?_
  rw [getLsbD_rotrBy _ _ hp, Nat.zero_mod, Nat.add_zero, Nat.mod_eq_of_lt hp]

/-- An amount reduced mod `w` is still a word: no bit is lost when it is written as one. -/
theorem ofNat_toNat_mod_toNat (m : Word w) : (BitVec.ofNat w (m.toNat % w)).toNat = m.toNat % w := by
  rw [BitVec.toNat_ofNat, Nat.mod_eq_of_lt (Nat.lt_of_le_of_lt (Nat.mod_le _ _) m.isLt)]

/-- Settles O27: the laws above, the amount of a rotate being the number of a word. -/
theorem lawsOfTheWordUnit : Obligations.LawsOfTheWordUnit := by
  intro w _ a b m
  refine ⟨wordSub_wordAdd_cancel a b, wordAdd_wordSub_cancel a b, wordXor_wordXor_cancel a b,
    rotrBy_rotlBy a m.toNat, rotlBy_rotrBy a m.toNat, ?_, ?_, rotlBy_eq_rotrBy a m.toNat, rotlBy_zero a, rotrBy_zero a,
    ?_⟩
  · rw [rotl, rotl, ofNat_toNat_mod_toNat, rotlBy_mod]
  · rw [rotr, rotr, ofNat_toNat_mod_toNat, rotrBy_mod]
  · rintro rfl
    rw [rotl, rotr, ← rotlBy_mod, ← rotrBy_mod, Nat.mod_one]
    exact ⟨rotlBy_zero a, rotrBy_zero a⟩

end Sys2Proof.Machine
end

section
/-! The commands of the Word Arithmetic unit (R107 to R112): one shape, a register written with a word that the two
sources determine, and the two ways such a command can fail. -/

namespace Sys2Proof.Machine

variable {i : Instr} {s : State}

/-- The word of a command that takes no index, without the index (R71). -/
theorem assemble_zero_idx (op rd rs1 rs2 : Nat) :
    assemble op rd rs1 rs2 0 = BitVec.ofNat 32 (op * 2 ^ 24 + rd * 2 ^ 23 + rs1 * 2 ^ 22 + rs2 * 2 ^ 21) := by
  rw [assemble, Nat.add_zero]

/-- A command that takes no input raises PayloadLength for any payload (R76, R219). -/
theorem exec_of_payload (hn : nIn s.cfg i = 0) (hf : s.FAULT = false) (hp : s.payload ≠ []) :
    exec i s = .next ((s.recordFault .payloadLength).respond 0x08 []) := by
  rw [exec_eq_command]
  exact command_badLength hf (by rwa [hn, ne_eq, List.length_eq_zero_iff])

/-- A halted engine refuses every command but those it still runs (R222). -/
theorem exec_of_halted (hi : runsWhenHalted i = false) (hf : s.FAULT = true) :
    exec i s = .next (s.respond 0x80 []) := by
  rw [exec_eq_command]
  exact command_refused hf (by simp [hi])

/-- A command whose body writes a register: the whole next state (R112). -/
theorem exec_of_setReg {rd : Reg} {v : Word s.cfg.w} (hb : bodyOf i s = .ok (s.setReg rd v, []))
    (hn : nIn s.cfg i = 0) (hf : s.FAULT = false) (hp : s.payload = []) :
    exec i s =
      .next (({ s with A := if rd = .A then v else s.A, B := if rd = .B then v else s.B } : State).respond 0x00 []) := by
  rw [exec_eq_command, ← State.setReg_eq]
  exact command_done hf (by rw [hp, hn, List.length_nil]) hb

/-- Settles O28: the commands write a register with the value the rules above give. -/
theorem addSubXorCommands : Obligations.AddSubXorCommands := by
  intro rd rs1 rs2
  refine ⟨⟨assemble_zero_idx .., assemble_zero_idx .., assemble_zero_idx ..⟩, fun s hf hp => ⟨⟨_, wordAdd_toNat _ _, exec_of_setReg rfl rfl hf hp⟩,
    ⟨_, wordSub_toNat _ _, exec_of_setReg rfl rfl hf hp⟩, ⟨_, BitVec.toNat_xor _ _, exec_of_setReg rfl rfl hf hp⟩⟩, ?_⟩
  rintro i (rfl | rfl | rfl) <;> exact ⟨fun _ => exec_of_payload rfl, fun _ => exec_of_halted rfl⟩

/-- Settles O29, as O28 with the rotates. -/
theorem rotateCommands : Obligations.RotateCommands := by
  intro rd rs1 rs2
  refine ⟨⟨assemble_zero_idx .., assemble_zero_idx ..⟩, fun s hf hp => ⟨⟨_, rotlBy_toNat _ _, exec_of_setReg rfl rfl hf hp⟩,
    ⟨_, rotrBy_toNat _ _, exec_of_setReg rfl rfl hf hp⟩⟩, ?_⟩
  rintro i (rfl | rfl) <;> exact ⟨fun _ => exec_of_payload rfl, fun _ => exec_of_halted rfl⟩

end Sys2Proof.Machine
end

section
/-! The word codec as R120 to R122 state it. A byte string and the number it writes determine each other, so the two
round trips are read off the numbers: `to_bytes` writes the word's number, `from_bytes` keeps the low `w` bits of the
string's. -/

namespace Sys2Proof.Machine

variable {w : Nat}

/-! ## Byte strings as numbers -/

theorem map_range_getD (buf : List Byte) : ((List.range buf.length).map fun m => buf.getD m 0) = buf := by
  apply List.ext_getElem
  · simp
  · intro m hm hm'
    simp [List.getD_eq_getElem?_getD, hm']

/-- The sum of R120. -/
theorem leValue_eq_sum (buf : List Byte) :
    leValue buf = ((List.range buf.length).map fun m => (buf.getD m 0).toNat * 2 ^ (8 * m)).sum := by
  rw [← leValue_map_range, map_range_getD]

theorem leValue_concat (front : List Byte) (last : Byte) :
    leValue (front ++ [last]) = leValue front + 2 ^ (8 * front.length) * last.toNat := by
  induction front with
  | nil => simp
  | cons byte rest ih =>
    rw [List.cons_append, leValue_cons, leValue_cons, ih, List.length_cons, Nat.mul_add_one, Nat.pow_add]
    ring

/-- Two strings of one length that write the same number are the same string. -/
theorem eq_of_leValue_eq {buf buf' : List Byte} (hlen : buf.length = buf'.length) (h : leValue buf = leValue buf') :
    buf = buf' := by
  induction buf generalizing buf' with
  | nil => exact (List.length_eq_zero_iff.mp hlen.symm).symm
  | cons byte rest ih =>
    cases buf' with
    | nil => cases hlen
    | cons byte' rest' =>
      rw [leValue_cons, leValue_cons] at h
      have hbyte := byte.isLt
      have hbyte' := byte'.isLt
      have hfirst : byte = byte' := BitVec.eq_of_toNat_eq (by omega)
      have hrest : rest = rest' := ih (Nat.succ.inj hlen) (by omega)
      rw [hfirst, hrest]

/-- The bytes of a number, `n` of them, write its low `8n` bits. -/
theorem leValue_digits (x n : Nat) :
    leValue ((List.range n).map fun m => BitVec.ofNat 8 (x / 2 ^ (8 * m))) = x % 2 ^ (8 * n) := by
  induction n with
  | zero => simp [Nat.mod_one]
  | succ n ih =>
    rw [List.range_succ, List.map_append, List.map_singleton, leValue_concat, ih, List.length_map, List.length_range,
      BitVec.toNat_ofNat, Nat.mul_add_one, Nat.pow_add, Nat.mod_mul]

/-! ## The two codec functions (R120, R121) -/

theorem toBytes_getD (x : Word w) {m : Nat} (h : m < ceilDiv w 8) : (toBytes x).getD m 0 = wordByte x m := by
  have hm : m < (toBytes x).length := by rwa [toBytes_length]
  rw [List.getD_eq_getElem _ _ hm, toBytes_getElem]

/-- Settles O30. -/
theorem codecFunctions : Obligations.CodecFunctions := by
  intro w buf x _
  refine ⟨?_, toBytes_length x, fun m hm => ?_⟩
  · rw [fromBytes_toNat, leValue_eq_sum]
  · rw [toBytes_getD x hm]
    exact wordByte_toNat x m

/-! ## The round trips (R122) -/

/-- The bytes of a word write its number: `8u` bits hold it. -/
theorem leValue_toBytes (x : Word w) : leValue (toBytes x) = x.toNat := by
  have hfits : x.toNat < 2 ^ (8 * ceilDiv w 8) :=
    Nat.lt_of_lt_of_le x.isLt (Nat.pow_le_pow_right (by decide) (le_eight_ceilDiv w))
  exact (leValue_digits x.toNat _).trans (Nat.mod_eq_of_lt hfits)

theorem fromBytes_toBytes (x : Word w) : fromBytes w (toBytes x) = x := by
  apply BitVec.eq_of_toNat_eq
  rw [fromBytes_toNat, leValue_toBytes, Nat.mod_eq_of_lt x.isLt]

/-- The last byte of a word's string with the bits above the word's width cleared (R122). -/
def clearUnused (w before : Nat) (last : Byte) : Byte := BitVec.ofNat 8 (last.toNat % 2 ^ (w - 8 * before))

theorem clearUnused_toNat (w before : Nat) (last : Byte) :
    (clearUnused w before last).toNat = last.toNat % 2 ^ (w - 8 * before) :=
  (BitVec.toNat_ofNat _ _).trans (Nat.mod_eq_of_lt (Nat.lt_of_le_of_lt (Nat.mod_le _ _) last.isLt))

theorem clearUnused_eq_self_iff {w before : Nat} {last : Byte} :
    clearUnused w before last = last ↔ last.toNat < 2 ^ (w - 8 * before) := by
  rw [← BitVec.toNat_inj, clearUnused_toNat, Nat.mod_eq_iff_lt (Nat.two_pow_pos _).ne']

/-- Only the last byte holds bits above the word's width, and `from_bytes` drops them (R120). -/
theorem fromBytes_concat_toNat (front : List Byte) (last : Byte) (h : 8 * front.length ≤ w) :
    (fromBytes w (front ++ [last])).toNat = leValue (front ++ [clearUnused w front.length last]) := by
  have hpow : 2 ^ w = 2 ^ (8 * front.length) * 2 ^ (w - 8 * front.length) := by
    rw [← Nat.pow_add, Nat.add_sub_of_le h]
  have hfront := leValue_lt front
  rw [fromBytes_toNat, leValue_concat, leValue_concat, clearUnused_toNat, hpow, Nat.mod_mul, Nat.add_mul_mod_self_left,
    Nat.mod_eq_of_lt hfront, Nat.add_mul_div_left _ _ (Nat.two_pow_pos _), Nat.div_eq_of_lt hfront, Nat.zero_add]

theorem toBytes_fromBytes_concat (front : List Byte) (last : Byte) (h : 8 * front.length ≤ w)
    (hlen : front.length + 1 = ceilDiv w 8) :
    toBytes (fromBytes w (front ++ [last])) = front ++ [clearUnused w front.length last] := by
  apply eq_of_leValue_eq
  · rw [toBytes_length, List.length_append, List.length_singleton, hlen]
  · rw [leValue_toBytes, fromBytes_concat_toNat front last h]

/-- Settles O31: a string is its front and its last byte, and only the last byte loses bits. -/
theorem codecRoundTrip : Obligations.CodecRoundTrip := by
  intro w hw
  refine ⟨fromBytes_toBytes, fun buf hlen => ?_, fun front last hlen => ?_, fun front last last' hlen hlast => ?_⟩
  · obtain rfl | ⟨front, last, rfl⟩ := buf.eq_nil_or_concat'
    · rw [List.length_nil] at hlen; omega
    · rw [List.length_append, List.length_singleton] at hlen
      have hlast : (front ++ [last]).getD front.length 0 = last := by simp
      rw [toBytes_fromBytes_concat front last (by omega) hlen, ← hlen, Nat.add_sub_cancel, hlast,
        List.append_cancel_left_eq, List.singleton_inj, clearUnused_eq_self_iff]
  · exact toBytes_fromBytes_concat front last (by omega) hlen
  · have hclear : clearUnused w front.length last = clearUnused w front.length last' :=
      congrArg (BitVec.ofNat 8) hlast
    apply BitVec.eq_of_toNat_eq
    rw [fromBytes_concat_toNat front last (by omega), fromBytes_concat_toNat front last' (by omega), hclear]

end Sys2Proof.Machine
end

section
/-! The commands of the Word Codec unit (R123 to R126): the effect of each body under the frame of R83, and the two ways
such a command can fail. -/

namespace Sys2Proof.Machine

variable {i : Instr} {s : State}

/-- A running engine makes the effect of a body whose checks pass, for a payload of the right length (R83 step 6). -/
theorem exec_of_bodyOf {s' : State} {out : List Byte} (hb : bodyOf i s = .ok (s', out)) (hf : s.FAULT = false)
    (hl : s.payload.length = nIn s.cfg i) : exec i s = .next (s'.respond 0x00 out) := by
  rw [exec_eq_command]
  exact command_done hf hl hb

/-- A payload of another length than the command takes raises PayloadLength (R76, R219). -/
theorem exec_of_badLength (hf : s.FAULT = false) (hl : s.payload.length ≠ nIn s.cfg i) :
    exec i s = .next ((s.recordFault .payloadLength).respond 0x08 []) := by
  rw [exec_eq_command]
  exact command_badLength hf hl

theorem encode_wld (rd : Reg) : encode (.wld rd) = BitVec.ofNat 32 (0x40000000 + regBit rd * 2 ^ 23) := by
  simp [encode, assemble]

theorem encode_wst (rs1 : Reg) : encode (.wst rs1) = BitVec.ofNat 32 (0x41000000 + regBit rs1 * 2 ^ 22) := by
  simp [encode, assemble]

/-- Settles O32: WLD writes a register, WST leaves the state as it is. -/
theorem wordLoadAndStoreCommands : Obligations.WordLoadAndStoreCommands := by
  intro reg
  refine ⟨⟨encode_wld reg, encode_wst reg⟩, fun s hf hl => ?_, fun s hf hp => ?_,
    fun s => exec_of_badLength (i := .wld reg), fun s => exec_of_payload rfl,
    fun s hf => ⟨exec_of_halted rfl hf, exec_of_halted rfl hf⟩⟩
  · rw [← State.setReg_eq]
    exact exec_of_bodyOf rfl hf hl
  · exact exec_of_bodyOf rfl hf (List.length_eq_zero_iff.mpr hp)

/-- Settles O33: a payload of two words is A's bytes, then B's. -/
theorem blockLoadAndStoreCommands : Obligations.BlockLoadAndStoreCommands := by
  refine ⟨⟨rfl, rfl⟩, fun s bytesA bytesB hf hA hB hp => ?_, fun s hf hp => ?_,
    fun s => exec_of_badLength (i := .blkld), fun s => exec_of_payload rfl,
    fun s hf => ⟨exec_of_halted rfl hf, exec_of_halted rfl hf⟩⟩
  · have hl : s.payload.length = 2 * s.cfg.u := by rw [hp, List.length_append, hA, hB, Nat.two_mul]
    exact exec_of_bodyOf (bodyOf_blkld_of_append hp hA) hf hl
  · exact exec_of_bodyOf rfl hf (List.length_eq_zero_iff.mpr hp)

end Sys2Proof.Machine
end

section
/-! The sizes of R6 as quotients rounded up: each is the least bound of a multiple, so two of them are compared by their
bounds. -/

namespace Sys2Proof

/-- The quotient of R6 is Mathlib's, whose lemmas it thereby has. -/
theorem ceilDiv_eq (p q : Nat) : ceilDiv p q = p ⌈/⌉ q := (Nat.ceilDiv_eq_add_pred_div p q).symm

theorem ceilDiv_le_iff {p q n : Nat} (hq : 0 < q) : ceilDiv p q ≤ n ↔ p ≤ q * n := by
  rw [ceilDiv_eq, ceilDiv_le_iff_le_mul hq]

theorem mul_ceilDiv_mul {m q : Nat} (hm : 0 < m) (hq : 0 < q) (p : Nat) : ceilDiv (m * p) (m * q) = ceilDiv p q :=
  eq_of_forall_ge_iff fun n => by
    rw [ceilDiv_le_iff (Nat.mul_pos hm hq), ceilDiv_le_iff hq, Nat.mul_assoc, Nat.mul_le_mul_left_iff hm]

namespace Config

theorem u_pos (cfg : Config) : 0 < cfg.u := by
  have hw := cfg.w_pos
  unfold u ceilDiv
  omega

theorem w_le_eight_mul_u (cfg : Config) : cfg.w ≤ 8 * cfg.u := Machine.le_eight_ceilDiv cfg.w

/-- Consequence 2 of R143: `c` words hold at least the bits of the key, and a chunk at least those of a word. -/
theorem chunks_le_c (cfg : Config) : ceilDiv cfg.b cfg.u ≤ cfg.c := by
  have hbits : cfg.b * 8 ≤ cfg.w * cfg.c := (ceilDiv_le_iff cfg.w_pos).mp (Nat.le_max_left _ _)
  have hword : cfg.w * cfg.c ≤ 8 * cfg.u * cfg.c := Nat.mul_le_mul_right _ cfg.w_le_eight_mul_u
  rw [Nat.mul_assoc] at hword
  exact (ceilDiv_le_iff cfg.u_pos).mpr (by omega)

/-- Consequence 4 of R143. -/
theorem c_eq_one_of_b_eq_zero {cfg : Config} (h : cfg.b = 0) : cfg.c = 1 := by
  rw [c, h, Nat.zero_mul, ceilDiv_eq, zero_ceilDiv]
  rfl

/-- Consequence 5 of R143: with `w = 8u` the key has as many words as chunks. -/
theorem u_and_c_of_eight_dvd {cfg : Config} (h : cfg.w % 8 = 0) :
    cfg.u = cfg.w / 8 ∧ cfg.c = max (ceilDiv cfg.b cfg.u) 1 := by
  have hu : cfg.u = cfg.w / 8 := by
    unfold u ceilDiv
    omega
  have hw : cfg.w = 8 * cfg.u := by omega
  have hchunks : ceilDiv (cfg.b * 8) cfg.w = ceilDiv cfg.b cfg.u := by
    rw [Nat.mul_comm cfg.b, hw, mul_ceilDiv_mul (by decide) cfg.u_pos]
  exact ⟨hu, by rw [c, hchunks]⟩

end Config

end Sys2Proof
end

section
/-! The init phases of the key schedule as R143 and R145 state them: a bit of an L-table entry is a bit of one key
byte, and an S-table entry has a closed form. -/

namespace Sys2Proof.Machine

/-! ## L-table init (R143) -/

/-- A bit of the number a byte string writes is a bit of one byte (R120). -/
theorem leValue_testBit (buf : List Byte) (p : Nat) :
    (leValue buf).testBit p = (buf.getD (p / 8) 0).getLsbD (p % 8) := by
  induction buf generalizing p with
  | nil => simp
  | cons byte rest ih =>
    rw [leValue_cons, Nat.add_comm, Nat.testBit_two_pow_mul_add _ byte.isLt]
    by_cases hp : p < 8
    · rw [if_pos hp, Nat.div_eq_of_lt hp, Nat.mod_eq_of_lt hp, List.getD_cons_zero]
      rfl
    · have hdiv : p / 8 = (p - 8) / 8 + 1 := by omega
      have hmod : p % 8 = (p - 8) % 8 := by omega
      rw [if_neg hp, ih, hdiv, hmod, List.getD_cons_succ]

theorem keyChunk_getD (cfg : Config) (key : Vector Byte cfg.b) (k : Nat) {m : Nat} (h : m < cfg.u) :
    (keyChunk cfg key k).getD m 0 = keyByte key (k * cfg.u + m) := by
  simp [keyChunk, memReadKey, List.getD_eq_getElem?_getD, h]

/-- A bit of an entry of `linit(key)` is a bit of one key byte. -/
theorem linit_getLsbD (cfg : Config) (key : Vector Byte cfg.b) {k p : Nat} (hk : k < cfg.c) (hp : p < cfg.w) :
    (linit cfg key)[k].getLsbD p = (keyByte key (k * cfg.u + p / 8)).getLsbD (p % 8) := by
  have hu : p / 8 < cfg.u := by
    have hw := cfg.w_le_eight_mul_u
    omega
  rw [linit_getElem, fromBytes, BitVec.getLsbD_ofNat, leValue_testBit, keyChunk_getD cfg key k hu, decide_eq_true hp,
    Bool.true_and]

/-- Consequence 3 of R143: beyond the last chunk every byte is beyond the key. -/
theorem linit_eq_zero_of_chunks_le (cfg : Config) (key : Vector Byte cfg.b) {k : Nat} (hk : k < cfg.c)
    (h : ceilDiv cfg.b cfg.u ≤ k) : (linit cfg key)[k] = 0 := by
  have hb : cfg.b ≤ k * cfg.u := by
    rw [Nat.mul_comm]
    exact (ceilDiv_le_iff cfg.u_pos).mp h
  refine BitVec.eq_of_getLsbD_eq fun p hp => ?_
  rw [linit_getLsbD cfg key hk hp, keyByte_of_ge (by omega)]
  simp

/-- Consequence 4 of R143. -/
theorem linit_of_b_eq_zero {cfg : Config} (key : Vector Byte cfg.b) (h : cfg.b = 0) : (linit cfg key).toList = [0] := by
  have hchunks : ceilDiv cfg.b cfg.u = 0 := by rw [h, ceilDiv_eq, zero_ceilDiv]
  apply List.ext_getElem
  · rw [Vector.length_toList, Config.c_eq_one_of_b_eq_zero h, List.length_singleton]
  · intro k hk hk'
    rw [Vector.getElem_toList, linit_eq_zero_of_chunks_le cfg key (by simpa using hk) (by omega),
      List.getElem_singleton]

/-- Settles O35: the bit rule above, read through the key's bytes, and the five consequences. -/
theorem linitPacksTheKeyByChunks : Obligations.LinitPacksTheKeyByChunks := by
  intro cfg key
  refine ⟨fun k p hk hp => ?_, cfg.chunks_le_c, fun k hk => linit_eq_zero_of_chunks_le cfg key hk,
    fun h => ⟨Config.c_eq_one_of_b_eq_zero h, linit_of_b_eq_zero key h⟩, Config.u_and_c_of_eight_dvd⟩
  rw [linit_getLsbD cfg key hk hp, keyByte_eq_getD]

/-! ## S-table init (R145) -/

/-- Settles O36: the closed form was proved by induction, the recursive form is the definition. -/
theorem sinitClosedForm : Obligations.SinitClosedForm := by
  intro cfg i h
  refine ⟨?_, fun h0 => ?_, sinit_getElem cfg 0 cfg.t_pos⟩
  · rw [sinit_getElem, sinitWord_eq, BitVec.toNat_ofNat]
  · cases i with
    | zero => exact absurd h0 (Nat.lt_irrefl 0)
    | succ i => rw [sinit_getElem, sinitWord_succ, wordAdd_eq, sinit_getElem, Nat.add_sub_cancel]

end Sys2Proof.Machine
end

section
/-! The mixing pass as a loop on the two tables (R147) and the number of times it comes to each entry (R150): the
iterations that come to entry `k` of a table of `len` entries are those congruent to `k` modulo `len`. -/

namespace Sys2Proof.Machine

/-- Settles O37, by the induction over the iterations of `listed_mixAfter`. -/
theorem mixFollowsTheListing : Obligations.MixFollowsTheListing :=
  fun cfg L S => (listingMix_eq cfg L S).symm

/-! ## What one iteration writes (R147) -/

section Iteration

variable {cfg : Config} (m : MixState cfg)

theorem mixIteration_S : (mixIteration m).S = m.S.set m.i (mixIteration m).MA := rfl

theorem mixIteration_L : (mixIteration m).L = m.L.set m.j (mixIteration m).MB := rfl

end Iteration

/-! ## How often an index comes up (R150) -/

/-- With `n = len·q + r` there are `q` whole rounds of the indices, and `k` comes up once more if it is below `r`. -/
theorem div_add_ite_eq_ceilDiv {len k : Nat} (hk : k < len) (n : Nat) :
    (n / len + if k < n % len then 1 else 0) = ceilDiv (n - k) len := by
  have hn : n / len * len + n % len = n := Nat.div_add_mod' n len
  have hr : n % len < len := Nat.mod_lt n (by omega)
  symm
  split
  · exact Nat.div_eq_of_lt_le (by rw [Nat.add_one_mul]; omega) (by rw [Nat.add_one_mul, Nat.add_one_mul]; omega)
  · exact Nat.div_eq_of_lt_le (by rw [Nat.add_zero]; omega) (by rw [Nat.add_zero, Nat.add_one_mul]; omega)

theorem filter_mod_length {len k : Nat} (hk : k < len) (n : Nat) :
    ((List.range n).filter fun m => m % len == k).length = ceilDiv (n - k) len := by
  have hcount : ((List.range n).filter fun m => m % len == k).length = n.count (· ≡ k [MOD len]) := by
    rw [Nat.count, List.countP_eq_length_filter]
    simp only [Nat.ModEq, Nat.mod_eq_of_lt hk, beq_eq_decide]
  rw [hcount, Nat.count_modEq_card n (by omega), Nat.mod_eq_of_lt hk, div_add_ite_eq_ceilDiv hk]

theorem three_le_ceilDiv {len k n : Nat} (hk : k < len) (hn : 3 * len ≤ n) : 3 ≤ ceilDiv (n - k) len := by
  rw [ceilDiv, Nat.le_div_iff_mul_le (by omega)]
  omega

theorem ceilDiv_three_mul_sub {len k : Nat} (hk : k < len) : ceilDiv (3 * len - k) len = 3 :=
  Nat.le_antisymm ((ceilDiv_le_iff (by omega)).mpr (by omega)) (three_le_ceilDiv hk (Nat.le_refl _))

/-- Settles O38: an iteration's writes are the definition's, at the indices of `mixAfter_indices`; the counts are
quotients of `n_mix`. -/
theorem mixTouchesEveryEntryThreeTimes : Obligations.MixTouchesEveryEntryThreeTimes := by
  intro cfg L S
  refine ⟨fun n => ?_, rfl, fun len hlen k hk => ?_⟩
  · obtain ⟨hi, hj⟩ := mixAfter_indices cfg L S n
    refine ⟨hi, hj, ?_, ?_⟩
    · simp only [mixAfter_succ, mixIteration_S, hi]
    · simp only [mixAfter_succ, mixIteration_L, hj]
  · have hmix : 3 * len ≤ cfg.nMix := by
      unfold Config.nMix
      omega
    rw [filter_mod_length hk]
    refine ⟨rfl, three_le_ceilDiv hk hmix, fun hmax => ?_⟩
    rw [Config.nMix, ← hmax, ceilDiv_three_mul_sub hk]

end Sys2Proof.Machine
end

section
/-! The commands of the Key Schedule unit (R142, R144, R146, R148, R149): the effect of each body under the frame of
R83, the two preconditions that can fail, and the two ways every such command can fail. -/

namespace Sys2Proof.Machine

variable {i : Instr} {s : State}

/-- A string of `b` bytes is stored byte by byte (R142). -/
theorem memWriteKey_getElem (b : Nat) (str : List Byte) {k : Nat} (h : k < b) :
    (memWriteKey b str)[k] = str.getD k 0 :=
  Vector.getElem_ofFn h

/-- Settles O34: the key stored is the payload, byte by byte. -/
theorem keyldLoadsTheKey : Obligations.KeyldLoadsTheKey :=
  ⟨rfl,
    fun s hf hl => ⟨memWriteKey s.cfg.b s.payload, fun _ h => memWriteKey_getElem s.cfg.b s.payload h,
      exec_of_bodyOf rfl hf hl⟩,
    fun _ => exec_of_badLength (i := .keyld), fun _ => exec_of_halted rfl⟩

/-! ## Commands without a payload -/

/-- The effect of a command that takes no payload (R83 step 6). -/
theorem exec_of_bodyOf_of_empty {s' : State} {out : List Byte} (hn : nIn s.cfg i = 0)
    (hb : bodyOf i s = .ok (s', out)) (hf : s.FAULT = false) (hp : s.payload = []) :
    exec i s = .next (s'.respond 0x00 out) :=
  exec_of_bodyOf hb hf (by rw [hp, hn, List.length_nil])

/-- A check of a command that takes no payload fails (R83 steps 4 and 5). -/
theorem exec_of_bodyOf_error {f : FaultCode} (hn : nIn s.cfg i = 0) (hb : bodyOf i s = .error f)
    (hf : s.FAULT = false) (hp : s.payload = []) : exec i s = .next ((s.recordFault f).respond f.code []) := by
  rw [exec_eq_command]
  exact command_fault hf (by rw [hp, hn, List.length_nil]) hb

theorem bodyOf_linit_of_noKey (h : s.KL = false) : bodyOf .linit s = .error .keyNotLoaded :=
  afterCheck_error.mpr (.inl (requireKey_error.mpr ⟨h, rfl⟩))

theorem bodyOf_expand_of_noKey (h : s.KL = false) : bodyOf .expand s = .error .keyNotLoaded :=
  afterCheck_error.mpr (.inl (requireKey_error.mpr ⟨h, rfl⟩))

theorem bodyOf_mix_of_not_initialised (h : ¬ (s.LST = .init ∧ s.SST = .init)) :
    bodyOf .mix s = .error .sequenceError :=
  afterCheck_error.mpr (.inl (requireInitialisedTables_error.mpr ⟨h, rfl⟩))

/-- Settles O39: the body of LINIT with and without a key. -/
theorem linitCommand : Obligations.LinitCommand :=
  ⟨rfl, fun _ hf hp hk => exec_of_bodyOf_of_empty rfl (bodyOf_linit_of_keyLoaded hk) hf hp,
    fun _ hf hp hk => exec_of_bodyOf_error rfl (bodyOf_linit_of_noKey hk) hf hp,
    fun _ => exec_of_payload rfl, fun _ => exec_of_halted rfl⟩

/-- Settles O40: the body of SINIT makes no check. -/
theorem sinitCommand : Obligations.SinitCommand :=
  ⟨rfl, fun _ => exec_of_bodyOf_of_empty rfl rfl, fun _ => exec_of_payload rfl, fun _ => exec_of_halted rfl⟩

/-- Settles O41: the body of MIX on two initialised tables and on any others. -/
theorem mixCommand : Obligations.MixCommand :=
  ⟨rfl, fun _ hf hp hl hs => exec_of_bodyOf_of_empty rfl (bodyOf_mix_of_initialised hl hs) hf hp,
    fun _ hf hp h => exec_of_bodyOf_error rfl (bodyOf_mix_of_not_initialised h) hf hp,
    fun _ => exec_of_payload rfl, fun _ => exec_of_halted rfl⟩

/-- Settles O42: the tables of `schedule` are those of the pass over the two init phases. -/
theorem expandCommand : Obligations.ExpandCommand :=
  ⟨rfl, fun _ hf hp hk => exec_of_bodyOf_of_empty rfl (bodyOf_expand_of_keyLoaded hk) hf hp,
    fun _ hf hp hk => exec_of_bodyOf_error rfl (bodyOf_expand_of_noKey hk) hf hp,
    fun _ => exec_of_payload rfl, fun _ => exec_of_halted rfl⟩

end Sys2Proof.Machine
end

section
/-! The Round Cipher unit (R171 to R176): each round of `decrypt` inverts the round of `encrypt` with the same number,
so the loops invert each other, as functions and on the machine; then the effect of ENC and DEC under the frame of R83. -/

namespace Sys2Proof.Machine

/-- Settles O44: the loop of `encrypt` is the left fold of its round over `1 .. r`. -/
theorem encryptFollowsTheListing : Obligations.EncryptFollowsTheListing :=
  fun _ S A B => encrypt_eq_listing S A B

/-- Settles O45: the loop of `decrypt` is the left fold of its round over the reverse of `1 .. r`. -/
theorem decryptFollowsTheListing : Obligations.DecryptFollowsTheListing :=
  fun _ S A B => decrypt_eq_listing S A B

/-! ## The round trip (R176) -/

section RoundTrip

variable {w : Nat} {cfg : Config} (S : Vector (Word cfg.w) cfg.t)

theorem rotr_rotl (a m : Word w) : rotr (rotl a m) m = a := rotrBy_rotlBy a m.toNat

theorem rotl_rotr (a m : Word w) : rotl (rotr a m) m = a := rotlBy_rotrBy a m.toNat

theorem decRound_encRound (i : Nat) (h : i ≤ cfg.r) (x : Word cfg.w × Word cfg.w) :
    decRound S i h (encRound S i h x) = x := by
  simp only [decRound, encRound, wordSub_wordAdd_cancel, rotr_rotl, wordXor_wordXor_cancel]

theorem encRound_decRound (i : Nat) (h : i ≤ cfg.r) (x : Word cfg.w × Word cfg.w) :
    encRound S i h (decRound S i h x) = x := by
  simp only [decRound, encRound, wordXor_wordXor_cancel, rotl_rotr, wordAdd_wordSub_cancel]

/-- The rounds `k` down to `1` meet the rounds `1` to `k` at round `k`, and peel them off from there. -/
theorem decFrom_encAfter (k : Nat) (h : k ≤ cfg.r) (x : Word cfg.w × Word cfg.w) :
    decFrom S k h (encAfter S x k h) = x := by
  induction k with
  | zero => rw [encAfter_zero, decFrom_zero, wordSub_wordAdd_cancel, wordSub_wordAdd_cancel]
  | succ k ih => rw [encAfter_succ, decFrom_succ, decRound_encRound, ih]

/-- See `decFrom_encAfter`; here round `k` of `decrypt`, its first, is the last to be undone. -/
theorem encAfter_decFrom (k : Nat) (h : k ≤ cfg.r) (x : Word cfg.w × Word cfg.w) :
    encAfter S (decFrom S k h x) k h = x := by
  induction k generalizing x with
  | zero => rw [decFrom_zero, encAfter_zero, wordAdd_wordSub_cancel, wordAdd_wordSub_cancel]
  | succ k ih => rw [decFrom_succ, encAfter_succ, ih, encRound_decRound]

@[simp] theorem decrypt_encrypt (A B : Word cfg.w) : decrypt S (encrypt S A B).1 (encrypt S A B).2 = (A, B) :=
  decFrom_encAfter S cfg.r (Nat.le_refl _) (A, B)

@[simp] theorem encrypt_decrypt (A B : Word cfg.w) : encrypt S (decrypt S A B).1 (decrypt S A B).2 = (A, B) :=
  encAfter_decFrom S cfg.r (Nat.le_refl _) (A, B)

end RoundTrip

/-- Settles O47: the two inductions over the rounds, taken to `r`. -/
theorem cipherRoundTrip : Obligations.CipherRoundTrip :=
  fun _ S A B => ⟨decrypt_encrypt S A B, encrypt_decrypt S A B⟩

/-- Settles O49: A and B alone are written, and the second command writes back the block the first one read. -/
theorem decUndoesEncOnTheMachine : Obligations.DecUndoesEncOnTheMachine := by
  intro s rest hf hm
  constructor
  · refine run_issue .enc rfl rfl hf rfl (bodyOf_enc_of_completed hm) ?_
    refine run_issue .dec rfl rfl hf rfl (bodyOf_dec_of_completed hm) ?_
    simp [Host.Core.run, State.respond, rcOK]
  · refine run_issue .dec rfl rfl hf rfl (bodyOf_dec_of_completed hm) ?_
    refine run_issue .enc rfl rfl hf rfl (bodyOf_enc_of_completed hm) ?_
    simp [Host.Core.run, State.respond, rcOK]

/-! ## No rounds (R175) -/

section ZeroRounds

variable {cfg : Config} (S : Vector (Word cfg.w) cfg.t)

theorem encrypt_of_r_eq_zero (hr : cfg.r = 0) (A B : Word cfg.w) :
    encrypt S A B = (A + S[0]'cfg.t_pos, B + S[1]'cfg.one_lt_t) := by
  rw [encrypt_eq_listing, hr, ← toList_getD_of_lt S 0 cfg.t_pos, ← toList_getD_of_lt S 0 cfg.one_lt_t]
  rfl

theorem decrypt_of_r_eq_zero (hr : cfg.r = 0) (A B : Word cfg.w) :
    decrypt S A B = (A - S[0]'cfg.t_pos, B - S[1]'cfg.one_lt_t) := by
  rw [decrypt_eq_listing, hr, ← toList_getD_of_lt S 0 cfg.t_pos, ← toList_getD_of_lt S 0 cfg.one_lt_t]
  rfl

theorem t_of_r_eq_zero (hr : cfg.r = 0) : cfg.t = 2 := by
  rw [Config.t, hr]

end ZeroRounds

/-- Settles O46: the listed loop over `1 .. 0` is empty, which leaves the block and the first two words of S. -/
theorem zeroRoundsAddTheTwoWords : Obligations.ZeroRoundsAddTheTwoWords := by
  intro cfg S A B hr
  have ht : cfg.t = 2 := t_of_r_eq_zero hr
  exact ⟨encrypt_of_r_eq_zero S hr A B, decrypt_of_r_eq_zero S hr A B, ht, by rw [Config.nMix, ht]⟩

/-! ## The commands (R173, R174) -/

theorem bodyOf_of_not_completed {i : Instr} {s : State} (hi : i = .enc ∨ i = .dec) (h : s.SST ≠ .mixed) :
    bodyOf i s = .error .tableNotReady := by
  rcases hi with rfl | rfl <;> exact afterCheck_error.mpr (.inl (requireCompletedSchedule_error.mpr ⟨h, rfl⟩))

/-- Settles O48: the bodies of ENC and DEC with and without a completed schedule. -/
theorem encAndDecCommands : Obligations.EncAndDecCommands := by
  refine ⟨⟨rfl, rfl⟩, fun s hf hp hm => ⟨?_, ?_⟩, ?_⟩
  · exact exec_of_bodyOf_of_empty rfl (bodyOf_enc_of_completed hm) hf hp
  · exact exec_of_bodyOf_of_empty rfl (bodyOf_dec_of_completed hm) hf hp
  · intro i hi
    have hn (s : State) : nIn s.cfg i = 0 := by rcases hi with rfl | rfl <;> rfl
    have hw : runsWhenHalted i = false := by rcases hi with rfl | rfl <;> rfl
    exact ⟨fun s hf hp h => exec_of_bodyOf_error (hn s) (bodyOf_of_not_completed hi h) hf hp,
      fun s => exec_of_payload (hn s), fun _ => exec_of_halted hw⟩

end Sys2Proof.Machine
end

section
/-! The system commands NOP and CRD and the observation commands SRD, LRD and SMV (R190, R192 to R195): the commands
that run halted or not, the three ends of a table read, and the effect of each body under the frame of R83. -/

namespace Sys2Proof.Machine

variable {i : Instr} {s : State}

/-- The word of a command that takes no source register (R71). -/
theorem assemble_zero_sources (op rd idx : Nat) :
    assemble op rd 0 0 idx = BitVec.ofNat 32 (op * 2 ^ 24 + rd * 2 ^ 23 + idx) := by
  simp [assemble]

/-! ## Commands a halted engine still runs (R222) -/

/-- Such a command makes its effect halted or not, for an empty payload (R83 step 6). -/
theorem exec_of_runsWhenHalted {s' : State} {out : List Byte} (hi : runsWhenHalted i = true) (hp : s.payload = [])
    (hb : bodyOf i s = .ok (s', out)) : exec i s = .next (s'.respond 0x00 out) := by
  rw [exec_eq_command, nIn_of_runsWhenHalted _ hi]
  exact command_done_whenHalted hi hp hb

/-- A halted engine refuses everything else (R83 step 1). -/
theorem exec_of_refused (hf : s.FAULT = true) (hx : ¬ (runsWhenHalted i = true ∧ s.payload = [])) :
    exec i s = .next (s.respond 0x80 []) := by
  rw [exec_eq_command]
  exact command_refused hf hx

/-- Settles O20: the body of NOP makes no check and no change. -/
theorem nopDoesNothing : Obligations.NopDoesNothing :=
  ⟨rfl, fun _ hp => exec_of_runsWhenHalted rfl hp rfl, fun _ hp hf => exec_of_payload rfl hf hp,
    fun _ hp hf => exec_of_refused hf fun hx => hp hx.2⟩

theorem bodyOf_crd_of_gt {idx : Nat} (h : 6 < idx) : bodyOf (.crd idx) s = .error .indexRange :=
  afterCheck_error.mpr (.inl (controlReg_of_gt h))

/-- CRD of a register that exists: the read of R192, which keeps the state. -/
theorem exec_crd_of_le {idx : Nat} (h : idx ≤ 6) (hp : s.payload = []) :
    exec (.crd idx) s =
      .next ((commandEffect s s.payload (.crd idx)).1.respond 0x00 (commandEffect s s.payload (.crd idx)).2) :=
  exec_of_runsWhenHalted (decide_eq_true h) hp (bodyOf_crd_of_le h)

/-- Settles O23: the seven registers one by one, then the numbers that name none. -/
theorem crdReturnsTheRegister : Obligations.CrdReturnsTheRegister := by
  refine ⟨fun idx _ => assemble_zero_sources 0x02 0 idx, fun s hp => ?_, fun s idx hf hp h => ?_, fun s idx => ?_,
    fun s idx hf h => exec_of_refused hf ?_⟩
  · have read (idx : Nat) (h : idx ≤ 6) := exec_crd_of_le h hp
    exact ⟨read 0 (by decide), read 1 (by decide), read 2 (by decide), read 3 (by decide), read 4 (by decide),
      read 5 (by decide), read 6 (by decide)⟩
  · exact exec_of_bodyOf_error rfl (bodyOf_crd_of_gt h) hf hp
  · exact exec_of_payload rfl
  · rintro ⟨hi, hp⟩
    exact h.elim (fun hne => hne hp) (Nat.not_lt.mpr (of_decide_eq_true hi))

/-! ## Reading a table (R193 to R195): the check of the table's state, then that of the index (R220) -/

/-- The shape that the bodies of SRD, LRD and SMV share, `use` being what the command does with the entry. -/
def tableRead {w n : Nat} (state : TableState) (table : Vector (Word w) n) (idx : Nat)
    (use : Word w → State × List Byte) : Except FaultCode (State × List Byte) :=
  afterCheck (requireWritten state) fun _ => afterCheck (tableElement table idx) fun v => .ok (use v)

section TableRead

variable {w n idx : Nat} {state : TableState} {table : Vector (Word w) n} {use : Word w → State × List Byte}

@[simp] theorem bodyOf_srd : bodyOf (.srd idx) s = tableRead s.SST s.S idx fun v => (s, toBytes v) := rfl

@[simp] theorem bodyOf_lrd : bodyOf (.lrd idx) s = tableRead s.LST s.L idx fun v => (s, toBytes v) := rfl

@[simp] theorem bodyOf_smv (rd : Reg) :
    bodyOf (.smv rd idx) s = tableRead s.SST s.S idx fun v => (s.setReg rd v, []) := rfl

theorem tableRead_of_lt (hw : state ≠ .empty) (h : idx < n) : tableRead state table idx use = .ok (use table[idx]) :=
  afterCheck_ok.mpr ⟨(), requireWritten_ok.mpr hw, afterCheck_ok.mpr ⟨_, tableElement_of_lt h, rfl⟩⟩

theorem tableRead_of_empty (he : state = .empty) : tableRead state table idx use = .error .tableNotReady :=
  afterCheck_error.mpr (.inl (requireWritten_error.mpr ⟨he, rfl⟩))

theorem tableRead_of_ge (hw : state ≠ .empty) (h : n ≤ idx) : tableRead state table idx use = .error .indexRange :=
  afterCheck_error.mpr (.inr ⟨(), requireWritten_ok.mpr hw, afterCheck_error.mpr (.inl (tableElement_of_ge h))⟩)

end TableRead

/-- Settles O24: each of the three bodies is a table read, which SRD and LRD return and SMV writes to a register. -/
theorem tableEntriesAreReturned : Obligations.TableEntriesAreReturned := by
  refine ⟨fun idx _ => ⟨assemble_zero_sources 0x50 0 idx, assemble_zero_sources 0x51 0 idx,
    fun rd => assemble_zero_sources 0x52 (regBit rd) idx⟩, fun s idx hf hp => ⟨fun h hw => ⟨?_, fun rd => ?_⟩,
    fun h hw => ?_, ?_, ?_⟩, ?_⟩
  · exact exec_of_bodyOf_of_empty rfl (bodyOf_srd.trans (tableRead_of_lt hw h)) hf hp
  · exact exec_of_setReg ((bodyOf_smv rd).trans (tableRead_of_lt hw h)) rfl hf hp
  · exact exec_of_bodyOf_of_empty rfl (bodyOf_lrd.trans (tableRead_of_lt hw h)) hf hp
  · rintro i (⟨rfl | ⟨rd, rfl⟩, he⟩ | ⟨rfl, he⟩) <;>
      exact exec_of_bodyOf_error rfl (by simp [tableRead_of_empty he]) hf hp
  · rintro i (⟨rfl | ⟨rd, rfl⟩, hw, h⟩ | ⟨rfl, hw, h⟩) <;>
      exact exec_of_bodyOf_error rfl (by simp [tableRead_of_ge hw h]) hf hp
  · rintro i idx (rfl | rfl | ⟨rd, rfl⟩) <;> exact ⟨fun _ => exec_of_payload rfl, fun _ => exec_of_halted rfl⟩

end Sys2Proof.Machine
end

section
/-! Faults and the halted state (R210 to R223, R231): the step of a transaction that raises a fault, that of one a
halted engine refuses or runs, and the idle step. -/

namespace Sys2Proof.Machine

variable {i : Instr} {s t : State} {cw : CommandWord} {inp : List Byte} {rest : List HostEvent} {f : FaultCode}

/-- Settles O7. -/
theorem engineIdlesWithoutEvents : Obligations.EngineIdlesWithoutEvents := fun _ => step_of_no_event

/-! ## Fault entry (R221) -/

/-- Neither an idle step nor hardware reset halts the engine: a transaction does (R224). -/
theorem transaction_of_step_halts (h : step s = .next t) (hf : s.FAULT = false) (ht : t.FAULT = true) :
    ∃ cw inp rest, s.inputs = .transaction cw inp :: rest := by
  match hin : s.inputs with
  | .transaction cw inp :: rest => exact ⟨cw, inp, rest, rfl⟩
  | [] =>
    rw [step_of_no_event hin] at h
    cases h
    exact absurd ht (by simp [hf])
  | .hardwareReset :: rest =>
    rw [step_of_hardwareReset hin] at h
    cases h
    cases ht

/-- A step that halts a running engine raised a fault: no end of a step but that one sets FAULT. -/
theorem faulted_of_step_halts (h : step s = .next t) (hf : s.FAULT = false) (ht : t.FAULT = true) :
    ∃ f : FaultCode, t = (s.recordFault f).respond f.code [] := by
  have hrun : s.FAULT ≠ true := Bool.eq_false_iff.mp hf
  cases stepEnd_of_step h with
  | idle => exact absurd ht hrun
  | reset => cases ht
  | refused hhalted => exact absurd hhalted hrun
  | faulted f => exact ⟨f, rfl⟩
  | executed i s' out _ hruns hb =>
    obtain rfl := eq_of_bodyOf_of_halted hb hruns ht
    exact absurd ht hrun

/-- Settles O12: the step is a transaction, and its end is the fault. -/
theorem faultEntryChangesNothingElse : Obligations.FaultEntryChangesNothingElse := by
  intro s t hstep hf ht
  obtain ⟨cw, inp, rest, hin⟩ := transaction_of_step_halts hstep hf ht
  obtain ⟨f, rfl⟩ := faulted_of_step_halts hstep hf ht
  exact ⟨f, cw, inp, rest, hin, next_transactionFault hin f⟩

/-! ## The halted state (R222) -/

theorem respond_of_transaction (hin : s.inputs = .transaction cw inp :: rest) (rc : BitVec 8) (out : List Byte) :
    s.respond rc out = { s with inputs := rest, responses := s.responses ++ [⟨rc, out⟩] } := by
  rw [State.respond, hin, List.tail_cons]

/-- CRD of a register that exists keeps the state and gives an output of the register's length (R192). -/
theorem exists_bodyOf_crd {idx : Nat} (h : idx ≤ 6) (s : State) :
    ∃ out, out.length = nOut s.cfg (.crd idx) ∧ bodyOf (.crd idx) s = .ok (s, out) := by
  obtain ⟨reg, hreg⟩ := controlReg_of_le h
  exact ⟨_, controlRegBytes_length hreg, afterCheck_ok.mpr ⟨reg, hreg, rfl⟩⟩

/-- A halted engine refuses a word that is no command, and a transaction of any command it does not still run. -/
theorem step_of_halted_refused (hin : s.inputs = .transaction cw inp :: rest) (hf : s.FAULT = true)
    (hx : ∀ i, decode cw = .ok i → ¬ (runsWhenHalted i = true ∧ inp = [])) :
    step s = .next (s.respond 0x80 []) := by
  cases hd : decode cw with
  | ok i =>
    rw [step_of_decoded hin hd]
    exact exec_of_refused hf (by rw [State.payload_of_transaction hin]; exact hx i hd)
  | error e =>
    rw [step_of_illegal hin hd]
    obtain ⟨-, he⟩ | ⟨hrun, -⟩ := illegalCommand_cases s
    · exact he
    · exact absurd hf (Bool.eq_false_iff.mp hrun)

/-- Settles O13: each of the three commands runs its body, everything else is refused. -/
theorem haltedEngineRunsThreeCommandsOnly : Obligations.HaltedEngineRunsThreeCommandsOnly := by
  intro s cw inp rest hin hf
  have hpayload := State.payload_of_transaction hin
  refine ⟨fun hd hp => ?_, fun hd hp => ?_, fun idx hd hidx hp => ?_, fun hnone => ?_⟩
  · rw [step_of_decoded hin hd]
    exact exec_of_runsWhenHalted rfl (hpayload.trans hp) rfl
  · rw [step_of_decoded hin hd]
    exact ⟨_, exec_srst_of_empty (hpayload.trans hp), (State.hasResetValues_resetEngine s).withPort _ _,
      congrArg List.tail hin, rfl⟩
  · obtain ⟨out, hlen, hb⟩ := exists_bodyOf_crd hidx s
    rw [step_of_decoded hin hd]
    exact ⟨out, hlen, exec_of_runsWhenHalted (decide_eq_true hidx) (hpayload.trans hp) hb⟩
  · rw [← respond_of_transaction hin]
    refine step_of_halted_refused hin hf fun i hd hx => hnone ⟨?_, hx.2⟩
    obtain rfl | rfl | ⟨idx, hidx, rfl⟩ := runsWhenHalted_cases hx.1
    · exact .inl hd
    · exact .inr (.inl hd)
    · exact .inr (.inr ⟨idx, hd, hidx⟩)

/-! ## The fault codes (R212 to R219) -/

/-- Settles O15: the payload is checked before the body, and three commands have one (R76). -/
theorem wrongPayloadLengthFaults : Obligations.WrongPayloadLengthFaults := by
  refine ⟨fun _ _ => exec_of_badLength, fun cfg => ⟨rfl, fun _ => rfl, rfl, fun i hkeyld hwld hblkld => ?_⟩⟩
  cases i
  case keyld => exact absurd rfl hkeyld
  case wld rd => exact absurd rfl (hwld rd)
  case blkld => exact absurd rfl hblkld
  all_goals rfl

/-- The step of a command without a payload whose body raises a fault: the whole next state (R221). -/
theorem step_of_bodyOf_error (hin : s.inputs = .transaction cw [] :: rest) (hd : decode cw = .ok i)
    (hn : nIn s.cfg i = 0) (hf : s.FAULT = false) (hb : bodyOf i s = .error f) :
    step s = .next { s with FAULT := true, FCODE := f.code, FCW := cw, inputs := rest
                            responses := s.responses ++ [⟨f.code, []⟩] } := by
  rw [step_of_decoded hin hd, exec_of_bodyOf_error hn hb hf (State.payload_of_transaction hin)]
  exact congrArg _ (next_transactionFault hin f)

/-- Settles O16: the bodies of the two commands that read KEY. -/
theorem keyNotLoadedFaults : Obligations.KeyNotLoadedFaults := by
  rintro s cw rest hin hf hk (rfl | rfl)
  · exact step_of_bodyOf_error hin (i := .linit) (by decide) rfl hf (bodyOf_linit_of_noKey hk)
  · exact step_of_bodyOf_error hin (i := .expand) (by decide) rfl hf (bodyOf_expand_of_noKey hk)

/-- Settles O17. -/
theorem mixOutOfSequenceFaults : Obligations.MixOutOfSequenceFaults := fun _ _ hin hf h =>
  step_of_bodyOf_error hin (i := .mix) (by decide) rfl hf (bodyOf_mix_of_not_initialised h)

/-- Settles O18: the cipher needs a completed schedule, and a table read a table that was written. -/
theorem unreadyTableFaults : Obligations.UnreadyTableFaults := by
  rintro s cw i rest hin hd hf (⟨hi, h⟩ | ⟨⟨idx, rfl⟩ | ⟨rd, idx, rfl⟩, h⟩ | ⟨⟨idx, rfl⟩, h⟩)
  · have hn : nIn s.cfg i = 0 := by rcases hi with rfl | rfl <;> rfl
    exact step_of_bodyOf_error hin hd hn hf (bodyOf_of_not_completed hi h)
  · exact step_of_bodyOf_error hin hd rfl hf (bodyOf_srd.trans (tableRead_of_empty h))
  · exact step_of_bodyOf_error hin hd rfl hf ((bodyOf_smv rd).trans (tableRead_of_empty h))
  · exact step_of_bodyOf_error hin hd rfl hf (bodyOf_lrd.trans (tableRead_of_empty h))

/-- The low half of a word that decodes to a command with an index is that index (R71, R74). -/
theorem index_of_decode {op idx : Nat} (hd : decode cw = .ok i) (hop : op < 2 ^ 8) (rd : Reg)
    (hencode : encode i = assemble op (regBit rd) 0 0 idx) (hwf : i.wf = indexFits idx) :
    (cw.extractLsb' 0 16).toNat = idx := by
  obtain ⟨hi, rfl⟩ := Laws.encodeOfDecode cw i hd
  have hidx : idx < 2 ^ 16 := of_decide_eq_true (hwf.symm.trans hi)
  obtain ⟨-, -, -, hfield⟩ := Laws.operands_assemble hop rd .A .A hidx
  rw [hencode]
  exact (extractLsb'_toNat_eq_div _ 0 16).trans hfield

/-- Settles O19: the state of the table is in order, so the index decides; the word ends in it. -/
theorem indexOutOfRangeFaults : Obligations.IndexOutOfRangeFaults := by
  rintro s cw i idx rest hin hd hf (⟨rfl | ⟨rd, rfl⟩, hw, h⟩ | ⟨rfl, hw, h⟩ | ⟨rfl, h⟩)
  · exact ⟨step_of_bodyOf_error hin hd rfl hf (bodyOf_srd.trans (tableRead_of_ge hw h)),
      index_of_decode hd (op := 0x50) (by decide) .A rfl rfl⟩
  · exact ⟨step_of_bodyOf_error hin hd rfl hf ((bodyOf_smv rd).trans (tableRead_of_ge hw h)),
      index_of_decode hd (op := 0x52) (by decide) rd rfl rfl⟩
  · exact ⟨step_of_bodyOf_error hin hd rfl hf (bodyOf_lrd.trans (tableRead_of_ge hw h)),
      index_of_decode hd (op := 0x51) (by decide) .A rfl rfl⟩
  · exact ⟨step_of_bodyOf_error hin hd rfl hf (bodyOf_crd_of_gt h),
      index_of_decode hd (op := 0x02) (by decide) .A rfl rfl⟩

end Sys2Proof.Machine
end

section
/-! Totality of the machine (R250): idle, hardware reset and transaction are all a step can be, and each answers a next
state. -/

namespace Sys2Proof.Machine

/-- Settles O8, by the first event pending. -/
theorem stepIsTotal : Obligations.StepIsTotal := by
  intro s
  match hin : s.inputs with
  | [] => exact ⟨_, step_of_no_event hin⟩
  | .hardwareReset :: _ => exact ⟨_, step_of_hardwareReset hin⟩
  | .transaction _ _ :: _ => exact step_transaction_total hin

end Sys2Proof.Machine
end
